-- ==== Sys2Proof/Word.lean ====
section
/-! DEFINITION. The word types of the CORE (spec/00_scope.md R5, R6; spec/30_encoding.md R70, R71). All unsigned (R7). -/

namespace Sys2Proof

/-- A general register, a timer, a byte of memory, the immediate NN (V_WIDTH, TIMER_WIDTH of R5). -/
abbrev Byte := BitVec 8

/-- The width of I, PC, a return address and an instruction word (I_WIDTH, PC_WIDTH of R5; R70). -/
abbrev Half := BitVec 16

/-- A register number X or Y, a row count N, a key code 0..15. -/
abbrev Nibble := BitVec 4

/-- The immediate NNN, a byte address 0..4095. -/
abbrev Addr := BitVec 12

end Sys2Proof
end

