-- ==== Sys2Proof/Syntax.lean ====
section
/-! DEFINITION. The instructions: one constructor per row of spec/opcode_table.json, in the table's order, with the
operands of spec/30_encoding.md R71 and R73. -/

namespace Sys2Proof

/-- The instruction set (spec/30_encoding.md R74). x and y are register numbers. -/
inductive Instr where
  /-- 00E0 CLS -/
  | cls
  /-- 00EE RET -/
  | ret
  /-- 0NNN with any other NNN: SYS, a no-op -/
  | sys (nnn : Addr)
  /-- 1NNN JP addr -/
  | jp (nnn : Addr)
  /-- 2NNN CALL addr -/
  | call (nnn : Addr)
  /-- 3XNN SE Vx, byte -/
  | seByte (x : Nibble) (nn : Byte)
  /-- 4XNN SNE Vx, byte -/
  | sneByte (x : Nibble) (nn : Byte)
  /-- 5XYN SE Vx, Vy; n is carried and ignored (R76) -/
  | seReg (x y n : Nibble)
  /-- 6XNN LD Vx, byte -/
  | ldByte (x : Nibble) (nn : Byte)
  /-- 7XNN ADD Vx, byte -/
  | addByte (x : Nibble) (nn : Byte)
  /-- 8XY0 LD Vx, Vy -/
  | ldReg (x y : Nibble)
  /-- 8XY1 OR Vx, Vy -/
  | orReg (x y : Nibble)
  /-- 8XY2 AND Vx, Vy -/
  | andReg (x y : Nibble)
  /-- 8XY3 XOR Vx, Vy -/
  | xorReg (x y : Nibble)
  /-- 8XY4 ADD Vx, Vy -/
  | addReg (x y : Nibble)
  /-- 8XY5 SUB Vx, Vy -/
  | subReg (x y : Nibble)
  /-- 8XY6 SHR Vx, Vy -/
  | shrReg (x y : Nibble)
  /-- 8XY7 SUBN Vx, Vy -/
  | subnReg (x y : Nibble)
  /-- 8XYE SHL Vx, Vy -/
  | shlReg (x y : Nibble)
  /-- 8XY8, a no-op -/
  | nop88 (x y : Nibble)
  /-- 8XY9, a no-op -/
  | nop89 (x y : Nibble)
  /-- 8XYA, a no-op -/
  | nop8A (x y : Nibble)
  /-- 8XYB, a no-op -/
  | nop8B (x y : Nibble)
  /-- 8XYC, a no-op -/
  | nop8C (x y : Nibble)
  /-- 8XYD, a no-op -/
  | nop8D (x y : Nibble)
  /-- 8XYF, a no-op -/
  | nop8F (x y : Nibble)
  /-- 9XYN SNE Vx, Vy; n is carried and ignored (R76) -/
  | sneReg (x y n : Nibble)
  /-- ANNN LD I, addr -/
  | ldI (nnn : Addr)
  /-- BNNN JP V0, addr -/
  | jpV0 (nnn : Addr)
  /-- CXNN RND Vx, byte -/
  | rnd (x : Nibble) (nn : Byte)
  /-- DXYN DRW Vx, Vy, nibble -/
  | drw (x y n : Nibble)
  /-- EX9E SKP Vx -/
  | skp (x : Nibble)
  /-- EXA1 SKNP Vx -/
  | sknp (x : Nibble)
  /-- EXNN with any other NN, a no-op -/
  | nopE (x : Nibble) (nn : Byte)
  /-- FX07 LD Vx, DT -/
  | ldVxDt (x : Nibble)
  /-- FX0A LD Vx, K -/
  | ldVxK (x : Nibble)
  /-- FX15 LD DT, Vx -/
  | ldDtVx (x : Nibble)
  /-- FX18 LD ST, Vx -/
  | ldStVx (x : Nibble)
  /-- FX1E ADD I, Vx -/
  | addI (x : Nibble)
  /-- FX29 LD F, Vx -/
  | ldF (x : Nibble)
  /-- FX33 LD B, Vx -/
  | ldB (x : Nibble)
  /-- FX55 LD [I], Vx -/
  | storeRegs (x : Nibble)
  /-- FX65 LD Vx, [I] -/
  | loadRegs (x : Nibble)
  /-- FXNN with any other NN, a no-op -/
  | nopF (x : Nibble) (nn : Byte)
  deriving DecidableEq, Repr

end Sys2Proof
end

