-- ==== Sys2Proof/WellFormed.lean ====
section
/-! DEFINITION. Which terms of Instr stand for a word: the catch-all no-op rows of families 0, E and F do not hold the
second keys of another row (spec/30_encoding.md R79). Every other operand takes every value of its field. -/

namespace Sys2Proof

/-- The second keys of family 0 that select CLS and RET (R75). -/
def family0Keys : List Addr := [0x0E0, 0x0EE]

/-- The second keys of family E that select SKP and SKNP (R79). -/
def familyEKeys : List Byte := [0x9E, 0xA1]

/-- The second keys of family F that select an instruction (R79). -/
def familyFKeys : List Byte := [0x07, 0x0A, 0x15, 0x18, 0x1E, 0x29, 0x33, 0x55, 0x65]

/-- The instruction is one that some word decodes to. -/
def Instr.wellFormed : Instr → Bool
  | .sys nnn => !family0Keys.contains nnn
  | .nopE _ nn => !familyEKeys.contains nn
  | .nopF _ nn => !familyFKeys.contains nn
  | .cls | .ret | .jp _ | .call _ | .seByte _ _ | .sneByte _ _ | .seReg _ _ _ | .ldByte _ _ | .addByte _ _
  | .ldReg _ _ | .orReg _ _ | .andReg _ _ | .xorReg _ _ | .addReg _ _ | .subReg _ _ | .shrReg _ _ | .subnReg _ _
  | .shlReg _ _ | .nop88 _ _ | .nop89 _ _ | .nop8A _ _ | .nop8B _ _ | .nop8C _ _ | .nop8D _ _ | .nop8F _ _
  | .sneReg _ _ _ | .ldI _ | .jpV0 _ | .rnd _ _ | .drw _ _ _ | .skp _ | .sknp _ | .ldVxDt _ | .ldVxK _ | .ldDtVx _
  | .ldStVx _ | .addI _ | .ldF _ | .ldB _ | .storeRegs _ | .loadRegs _ => true

end Sys2Proof
end

