-- ==== Sys2Proof/Decode.lean ====
section
/-! DEFINITION. The decoder (spec/30_encoding.md R70 to R80), the encoder, and spec/opcode_table.json as rows to hold the
decoder against. -/

namespace Sys2Proof

/-! ## Fields (R71) -/

/-- F = w[15:12]. -/
def fieldF (w : Half) : Nibble := w.extractLsb' 12 4
/-- X = w[11:8]. -/
def fieldX (w : Half) : Nibble := w.extractLsb' 8 4
/-- Y = w[7:4]. -/
def fieldY (w : Half) : Nibble := w.extractLsb' 4 4
/-- N = w[3:0]. -/
def fieldN (w : Half) : Nibble := w.extractLsb' 0 4
/-- NN = w[7:0]. -/
def fieldNN (w : Half) : Byte := w.extractLsb' 0 8
/-- NNN = w[11:0]. -/
def fieldNNN (w : Half) : Addr := w.extractLsb' 0 12

/-! ## Selection (R74 to R77) -/

/-- Family 0 keys on the whole NNN (R75). -/
def decodeFamily0 (nnn : Addr) : Instr :=
  if nnn = 0x0E0 then .cls
  else if nnn = 0x0EE then .ret
  else .sys nnn

/-- Family 8 keys on N (R77); N = F is the last case. -/
def decodeFamily8 (x y n : Nibble) : Instr :=
  match n.toNat with
  | 0x0 => .ldReg x y
  | 0x1 => .orReg x y
  | 0x2 => .andReg x y
  | 0x3 => .xorReg x y
  | 0x4 => .addReg x y
  | 0x5 => .subReg x y
  | 0x6 => .shrReg x y
  | 0x7 => .subnReg x y
  | 0x8 => .nop88 x y
  | 0x9 => .nop89 x y
  | 0xA => .nop8A x y
  | 0xB => .nop8B x y
  | 0xC => .nop8C x y
  | 0xD => .nop8D x y
  | 0xE => .shlReg x y
  | _ => .nop8F x y

/-- Family E keys on NN (R77). -/
def decodeFamilyE (x : Nibble) (nn : Byte) : Instr :=
  if nn = 0x9E then .skp x
  else if nn = 0xA1 then .sknp x
  else .nopE x nn

/-- Family F keys on NN (R77). -/
def decodeFamilyF (x : Nibble) (nn : Byte) : Instr :=
  if nn = 0x07 then .ldVxDt x
  else if nn = 0x0A then .ldVxK x
  else if nn = 0x15 then .ldDtVx x
  else if nn = 0x18 then .ldStVx x
  else if nn = 0x1E then .addI x
  else if nn = 0x29 then .ldF x
  else if nn = 0x33 then .ldB x
  else if nn = 0x55 then .storeRegs x
  else if nn = 0x65 then .loadRegs x
  else .nopF x nn

/-- Every word decodes (R72): the family, then the second key of families 0, 8, E and F; family F is the last case. -/
def decode (w : Half) : Instr :=
  match (fieldF w).toNat with
  | 0x0 => decodeFamily0 (fieldNNN w)
  | 0x1 => .jp (fieldNNN w)
  | 0x2 => .call (fieldNNN w)
  | 0x3 => .seByte (fieldX w) (fieldNN w)
  | 0x4 => .sneByte (fieldX w) (fieldNN w)
  | 0x5 => .seReg (fieldX w) (fieldY w) (fieldN w)
  | 0x6 => .ldByte (fieldX w) (fieldNN w)
  | 0x7 => .addByte (fieldX w) (fieldNN w)
  | 0x8 => decodeFamily8 (fieldX w) (fieldY w) (fieldN w)
  | 0x9 => .sneReg (fieldX w) (fieldY w) (fieldN w)
  | 0xA => .ldI (fieldNNN w)
  | 0xB => .jpV0 (fieldNNN w)
  | 0xC => .rnd (fieldX w) (fieldNN w)
  | 0xD => .drw (fieldX w) (fieldY w) (fieldN w)
  | 0xE => decodeFamilyE (fieldX w) (fieldNN w)
  | _ => decodeFamilyF (fieldX w) (fieldNN w)

/-! ## Bytes (spec/20_memory.md R51) -/

/-- word = MEM[PC] ++ MEM[PC + 1]: the first byte is the most significant. -/
def wordOfBytes (b1 b2 : Byte) : Half := b1 ++ b2

/-- The byte an instruction word has at its own address. -/
def highByte (w : Half) : Byte := w.extractLsb' 8 8

/-- The byte an instruction word has at its own address plus 1. -/
def lowByte (w : Half) : Byte := w.extractLsb' 0 8

/-- Why a list of bytes is no instruction. R80: no word has a length other than 2 bytes. -/
inductive DecodeRefusal where
  | fewerThanTwoBytes
  deriving DecidableEq, Repr

/-- Decode from a list of bytes: the instruction and the bytes after it. Any two bytes decode (R72). -/
def decodeBytes : List Byte → Except DecodeRefusal (Instr × List Byte)
  | b1 :: b2 :: rest => .ok (decode (wordOfBytes b1 b2), rest)
  | _ => .error .fewerThanTwoBytes

/-- What decodeBytes reads from the word w of nbits bits, numbered as spec/opcode_table.json numbers them, its high byte
stored first. No instruction is longer than 16 bits (R80). -/
def decodeTableWord (nbits w : Nat) : Option Instr :=
  if nbits ≤ 16 then
    let word : Half := BitVec.ofNat 16 (w % 2 ^ nbits)
    match decodeBytes [highByte word, lowByte word] with
    | .ok (instr, _) => some instr
    | .error _ => none
  else none

/-! ## Encoder (R74) -/

/-- Family and NNN. -/
def wordNNN (f : Nibble) (nnn : Addr) : Half := f ++ nnn
/-- Family, X and NN. -/
def wordXNN (f x : Nibble) (nn : Byte) : Half := f ++ x ++ nn
/-- Family, X, Y and N. -/
def wordXYN (f x y n : Nibble) : Half := f ++ x ++ y ++ n

/-- The word of a well-formed instruction. -/
def encode : Instr → Half
  | .cls => 0x00E0
  | .ret => 0x00EE
  | .sys nnn => wordNNN 0x0 nnn
  | .jp nnn => wordNNN 0x1 nnn
  | .call nnn => wordNNN 0x2 nnn
  | .seByte x nn => wordXNN 0x3 x nn
  | .sneByte x nn => wordXNN 0x4 x nn
  | .seReg x y n => wordXYN 0x5 x y n
  | .ldByte x nn => wordXNN 0x6 x nn
  | .addByte x nn => wordXNN 0x7 x nn
  | .ldReg x y => wordXYN 0x8 x y 0x0
  | .orReg x y => wordXYN 0x8 x y 0x1
  | .andReg x y => wordXYN 0x8 x y 0x2
  | .xorReg x y => wordXYN 0x8 x y 0x3
  | .addReg x y => wordXYN 0x8 x y 0x4
  | .subReg x y => wordXYN 0x8 x y 0x5
  | .shrReg x y => wordXYN 0x8 x y 0x6
  | .subnReg x y => wordXYN 0x8 x y 0x7
  | .shlReg x y => wordXYN 0x8 x y 0xE
  | .nop88 x y => wordXYN 0x8 x y 0x8
  | .nop89 x y => wordXYN 0x8 x y 0x9
  | .nop8A x y => wordXYN 0x8 x y 0xA
  | .nop8B x y => wordXYN 0x8 x y 0xB
  | .nop8C x y => wordXYN 0x8 x y 0xC
  | .nop8D x y => wordXYN 0x8 x y 0xD
  | .nop8F x y => wordXYN 0x8 x y 0xF
  | .sneReg x y n => wordXYN 0x9 x y n
  | .ldI nnn => wordNNN 0xA nnn
  | .jpV0 nnn => wordNNN 0xB nnn
  | .rnd x nn => wordXNN 0xC x nn
  | .drw x y n => wordXYN 0xD x y n
  | .skp x => wordXNN 0xE x 0x9E
  | .sknp x => wordXNN 0xE x 0xA1
  | .nopE x nn => wordXNN 0xE x nn
  | .ldVxDt x => wordXNN 0xF x 0x07
  | .ldVxK x => wordXNN 0xF x 0x0A
  | .ldDtVx x => wordXNN 0xF x 0x15
  | .ldStVx x => wordXNN 0xF x 0x18
  | .addI x => wordXNN 0xF x 0x1E
  | .ldF x => wordXNN 0xF x 0x29
  | .ldB x => wordXNN 0xF x 0x33
  | .storeRegs x => wordXNN 0xF x 0x55
  | .loadRegs x => wordXNN 0xF x 0x65
  | .nopF x nn => wordXNN 0xF x nn

/-! ## The opcode table (R79) -/

/-- One row of spec/opcode_table.json: a word w selects it when (w AND mask) = value. -/
structure OpcodeRow where
  mnemonic : String
  value : Half
  mask : Half
  priority : Nat
  deriving DecidableEq, Repr

/-- Rows of the table, in its order. -/
def rowsFamilies0To8 : List OpcodeRow := [
  ⟨"CLS", 0x00E0, 0xFFFF, 0⟩,
  ⟨"RET", 0x00EE, 0xFFFF, 0⟩,
  ⟨"SYS_addr__no-op", 0x0000, 0xF000, 1⟩,
  ⟨"JP_addr", 0x1000, 0xF000, 0⟩,
  ⟨"CALL_addr", 0x2000, 0xF000, 0⟩,
  ⟨"SE_Vx__byte", 0x3000, 0xF000, 0⟩,
  ⟨"SNE_Vx__byte", 0x4000, 0xF000, 0⟩,
  ⟨"SE_Vx__Vy", 0x5000, 0xF000, 0⟩,
  ⟨"LD_Vx__byte", 0x6000, 0xF000, 0⟩,
  ⟨"ADD_Vx__byte", 0x7000, 0xF000, 0⟩,
  ⟨"LD_Vx__Vy", 0x8000, 0xF00F, 0⟩]

/-- Rows of the table, in its order. -/
def rowsFamily8 : List OpcodeRow := [
  ⟨"OR_Vx__Vy", 0x8001, 0xF00F, 0⟩,
  ⟨"AND_Vx__Vy", 0x8002, 0xF00F, 0⟩,
  ⟨"XOR_Vx__Vy", 0x8003, 0xF00F, 0⟩,
  ⟨"ADD_Vx__Vy", 0x8004, 0xF00F, 0⟩,
  ⟨"SUB_Vx__Vy", 0x8005, 0xF00F, 0⟩,
  ⟨"SHR_Vx__Vy", 0x8006, 0xF00F, 0⟩,
  ⟨"SUBN_Vx__Vy", 0x8007, 0xF00F, 0⟩,
  ⟨"SHL_Vx__Vy", 0x800E, 0xF00F, 0⟩,
  ⟨"NOP8__no-op__N_0x8", 0x8008, 0xF00F, 0⟩,
  ⟨"NOP8__no-op__N_0x9", 0x8009, 0xF00F, 0⟩,
  ⟨"NOP8__no-op__N_0xA", 0x800A, 0xF00F, 0⟩,
  ⟨"NOP8__no-op__N_0xB", 0x800B, 0xF00F, 0⟩,
  ⟨"NOP8__no-op__N_0xC", 0x800C, 0xF00F, 0⟩,
  ⟨"NOP8__no-op__N_0xD", 0x800D, 0xF00F, 0⟩,
  ⟨"NOP8__no-op__N_0xF", 0x800F, 0xF00F, 0⟩]

/-- Rows of the table, in its order. -/
def rowsFamilies9ToE : List OpcodeRow := [
  ⟨"SNE_Vx__Vy", 0x9000, 0xF000, 0⟩,
  ⟨"LD_I__addr", 0xA000, 0xF000, 0⟩,
  ⟨"JP_V0__addr", 0xB000, 0xF000, 0⟩,
  ⟨"RND_Vx__byte", 0xC000, 0xF000, 0⟩,
  ⟨"DRW_Vx__Vy__nibble", 0xD000, 0xF000, 0⟩,
  ⟨"SKP_Vx", 0xE09E, 0xF0FF, 0⟩,
  ⟨"SKNP_Vx", 0xE0A1, 0xF0FF, 0⟩,
  ⟨"NOPE__no-op", 0xE000, 0xF000, 1⟩]

/-- Rows of the table, in its order. -/
def rowsFamilyF : List OpcodeRow := [
  ⟨"LD_Vx__DT", 0xF007, 0xF0FF, 0⟩,
  ⟨"LD_Vx__K", 0xF00A, 0xF0FF, 0⟩,
  ⟨"LD_DT__Vx", 0xF015, 0xF0FF, 0⟩,
  ⟨"LD_ST__Vx", 0xF018, 0xF0FF, 0⟩,
  ⟨"ADD_I__Vx", 0xF01E, 0xF0FF, 0⟩,
  ⟨"LD_F__Vx", 0xF029, 0xF0FF, 0⟩,
  ⟨"LD_B__Vx", 0xF033, 0xF0FF, 0⟩,
  ⟨"LD__I___Vx", 0xF055, 0xF0FF, 0⟩,
  ⟨"LD_Vx___I", 0xF065, 0xF0FF, 0⟩,
  ⟨"NOPF__no-op", 0xF000, 0xF000, 1⟩]

/-- spec/opcode_table.json, row for row. -/
def opcodeTable : List OpcodeRow :=
  rowsFamilies0To8 ++ rowsFamily8 ++ rowsFamilies9ToE ++ rowsFamilyF

/-- The rows a word selects: those it matches, and a row of priority 1 only where none of priority 0 matches (R79). -/
def selectedRows (w : Half) : List OpcodeRow :=
  let hits := opcodeTable.filter fun r => w &&& r.mask == r.value
  let first := hits.filter fun r => r.priority == 0
  if first.isEmpty then hits else first

/-- The row of spec/opcode_table.json an instruction stands for. -/
def Instr.mnemonic : Instr → String
  | .cls => "CLS"
  | .ret => "RET"
  | .sys _ => "SYS_addr__no-op"
  | .jp _ => "JP_addr"
  | .call _ => "CALL_addr"
  | .seByte _ _ => "SE_Vx__byte"
  | .sneByte _ _ => "SNE_Vx__byte"
  | .seReg _ _ _ => "SE_Vx__Vy"
  | .ldByte _ _ => "LD_Vx__byte"
  | .addByte _ _ => "ADD_Vx__byte"
  | .ldReg _ _ => "LD_Vx__Vy"
  | .orReg _ _ => "OR_Vx__Vy"
  | .andReg _ _ => "AND_Vx__Vy"
  | .xorReg _ _ => "XOR_Vx__Vy"
  | .addReg _ _ => "ADD_Vx__Vy"
  | .subReg _ _ => "SUB_Vx__Vy"
  | .shrReg _ _ => "SHR_Vx__Vy"
  | .subnReg _ _ => "SUBN_Vx__Vy"
  | .shlReg _ _ => "SHL_Vx__Vy"
  | .nop88 _ _ => "NOP8__no-op__N_0x8"
  | .nop89 _ _ => "NOP8__no-op__N_0x9"
  | .nop8A _ _ => "NOP8__no-op__N_0xA"
  | .nop8B _ _ => "NOP8__no-op__N_0xB"
  | .nop8C _ _ => "NOP8__no-op__N_0xC"
  | .nop8D _ _ => "NOP8__no-op__N_0xD"
  | .nop8F _ _ => "NOP8__no-op__N_0xF"
  | .sneReg _ _ _ => "SNE_Vx__Vy"
  | .ldI _ => "LD_I__addr"
  | .jpV0 _ => "JP_V0__addr"
  | .rnd _ _ => "RND_Vx__byte"
  | .drw _ _ _ => "DRW_Vx__Vy__nibble"
  | .skp _ => "SKP_Vx"
  | .sknp _ => "SKNP_Vx"
  | .nopE _ _ => "NOPE__no-op"
  | .ldVxDt _ => "LD_Vx__DT"
  | .ldVxK _ => "LD_Vx__K"
  | .ldDtVx _ => "LD_DT__Vx"
  | .ldStVx _ => "LD_ST__Vx"
  | .addI _ => "ADD_I__Vx"
  | .ldF _ => "LD_F__Vx"
  | .ldB _ => "LD_B__Vx"
  | .storeRegs _ => "LD__I___Vx"
  | .loadRegs _ => "LD_Vx___I"
  | .nopF _ _ => "NOPF__no-op"

/-- The instruction is one of the no-ops of R79. -/
def Instr.isNoOp : Instr → Bool
  | .cls => false
  | .ret => false
  | .sys _ => true
  | .jp _ => false
  | .call _ => false
  | .seByte _ _ => false
  | .sneByte _ _ => false
  | .seReg _ _ _ => false
  | .ldByte _ _ => false
  | .addByte _ _ => false
  | .ldReg _ _ => false
  | .orReg _ _ => false
  | .andReg _ _ => false
  | .xorReg _ _ => false
  | .addReg _ _ => false
  | .subReg _ _ => false
  | .shrReg _ _ => false
  | .subnReg _ _ => false
  | .shlReg _ _ => false
  | .nop88 _ _ => true
  | .nop89 _ _ => true
  | .nop8A _ _ => true
  | .nop8B _ _ => true
  | .nop8C _ _ => true
  | .nop8D _ _ => true
  | .nop8F _ _ => true
  | .sneReg _ _ _ => false
  | .ldI _ => false
  | .jpV0 _ => false
  | .rnd _ _ => false
  | .drw _ _ _ => false
  | .skp _ => false
  | .sknp _ => false
  | .nopE _ _ => true
  | .ldVxDt _ => false
  | .ldVxK _ => false
  | .ldDtVx _ => false
  | .ldStVx _ => false
  | .addI _ => false
  | .ldF _ => false
  | .ldB _ => false
  | .storeRegs _ => false
  | .loadRegs _ => false
  | .nopF _ _ => true

end Sys2Proof
end

