-- ==== Sys2Proof/Machine/Font.lean ====
section
/-! DEFINITION. FONT_DATA's default (spec/10_state.md R36), 16 digits of 5 bytes, top row first. The spec marks the bytes
as general knowledge (93 G1), so no statement of this model rests on them: log 4. -/

namespace Sys2Proof.Machine

/-- FONT_BASE, FONT_GLYPH_BYTES and the length of FONT_DATA (R5). -/
abbrev fontBase : Nat := 50
abbrev fontGlyphBytes : Nat := 5
abbrev fontBytes : Nat := 80

/-- The table of R36. PRESUMED (log 4). -/
def conventionalFont : Vector Byte fontBytes := #v[
  0xF0, 0x90, 0x90, 0x90, 0xF0,
  0x20, 0x60, 0x20, 0x20, 0x70,
  0xF0, 0x10, 0xF0, 0x80, 0xF0,
  0xF0, 0x10, 0xF0, 0x10, 0xF0,
  0x90, 0x90, 0xF0, 0x10, 0x10,
  0xF0, 0x80, 0xF0, 0x10, 0xF0,
  0xF0, 0x80, 0xF0, 0x90, 0xF0,
  0xF0, 0x10, 0x20, 0x40, 0x40,
  0xF0, 0x90, 0xF0, 0x90, 0xF0,
  0xF0, 0x90, 0xF0, 0x10, 0xF0,
  0xF0, 0x90, 0xF0, 0x90, 0x90,
  0xE0, 0x90, 0xE0, 0x90, 0xE0,
  0xF0, 0x80, 0x80, 0x80, 0xF0,
  0xE0, 0x90, 0x90, 0x90, 0xE0,
  0xF0, 0x80, 0xF0, 0x80, 0xF0,
  0xF0, 0x80, 0xF0, 0x80, 0x80]

end Sys2Proof.Machine
end

