-- ==== Sys2Proof/Config.lean ====
section
/-! DEFINITION. What an implementation fixes (the parameters of spec/00_scope.md R5), the inputs from outside the CORE
(spec/60_exceptions.md R228), and the free values: constants without a body, so that nothing proves a value of one. -/

namespace Sys2Proof

/-- VF_WRITE_ORDER (spec/42_alu.md R134): which of result and flag is written last. -/
inductive VfWriteOrder where
  | flagLast
  | resultLast
  | inPlace
  deriving DecidableEq, Repr

/-- STACK_DEPTH (spec/10_state.md R26). R5 allows a finite depth of 1 or more: Params.Legal. -/
inductive StackDepth where
  | unbounded
  | finite (depth : Nat)
  deriving DecidableEq, Repr

/-- The parameters of R5 that are OPEN or a decision with alternatives, fixed at construction (R37). -/
structure Params where
  /-- QUIRK_LEGACY: true = original CHIP-8, false = SUPER-CHIP. -/
  quirkLegacy : Bool
  /-- STORE_LOAD_INCREMENTS_I (spec/43_index_memory.md R166). -/
  storeLoadIncrementsI : Bool
  /-- STACK_DEPTH. -/
  stackDepth : StackDepth
  /-- VF_WRITE_ORDER. -/
  vfWriteOrder : VfWriteOrder
  /-- LOGIC_RESETS_VF (spec/42_alu.md R135). -/
  logicResetsVf : Bool
  /-- FONT_DATA (spec/10_state.md R36). -/
  font : Vector Byte Machine.fontBytes
  deriving DecidableEq, Repr

/-- A finite STACK_DEPTH is at least 1 (R5). -/
def Params.Legal (p : Params) : Prop := p.stackDepth ≠ .finite 0

/-- What the other agents do to the CORE, each one atomic step: the ticks of the timer subsystem (R220, R221) and the
inputs of the port list (R228). -/
inductive Event where
  /-- One tick of DT (R220). -/
  | tickDelay
  /-- One tick of ST (R220). -/
  | tickSound
  /-- disp_take: the Display collaborator takes the snapshot (R225). -/
  | takeFrame
  /-- key_valid with key_code: the Input collaborator answers a wait (R184). -/
  | answerKey (key : Nibble)
  /-- init: re-initialise the whole machine (R240). -/
  | init
  /-- load_we with load_addr and load_data: a byte of the program image (R241). -/
  | loadByte (addr : Addr) (data : Byte)
  /-- run: leave the load phase and start fetching (R228). -/
  | run
  deriving DecidableEq, Repr

namespace Config

/-- QUIRK_LEGACY of the machine at hand: the spec gives no default (92 D11). Free (log 1). -/
opaque quirkLegacy : Bool

/-- RandByte() of the n-th draw (R146): any byte. Free (log 5). -/
opaque randByte : Nat → Byte

/-- KeyPressed(k) at the n-th draw (R126): any answer, for k above 15 too. Free (log 5). -/
opaque keyPressed : Nat → Byte → Bool

/-- For the n-th draw, whether item k that an instruction stopped by DATA_OUT_OF_RANGE would have written holds the new
value (true) or the old one (R215). Free (log 7). -/
opaque holdsNew : Nat → Nat → Bool

/-- What the other agents do between the engine's n-th turn and the next: any finite run of events in any order (R221,
R228). Free (log 6). -/
opaque environment : Nat → List Event

/-- The parameters at the values R5 gives as defaults; QUIRK_LEGACY, which has none, stays free (log 1 to 4). -/
def params : Params where
  quirkLegacy := quirkLegacy
  storeLoadIncrementsI := quirkLegacy
  stackDepth := .unbounded
  vfWriteOrder := .flagLast
  logicResetsVf := false
  font := Machine.conventionalFont

end Config

end Sys2Proof
end

