-- ==== Sys2Proof/Machine/State.lean ====
section
/-! DEFINITION. The state of the CORE (spec/10_state.md), plain data, and State.reset (spec/70_reset_and_hazards.md R240).
-/

namespace Sys2Proof.Machine

/-- FB_WIDTH and FB_HEIGHT (R5). -/
abbrev frameWidth : Nat := 64
abbrev frameHeight : Nat := 32

/-- A 64 by 32 grid of pixels, column-indexed first: column c, then row r (R30, R31). -/
abbrev Frame := Vector (Vector Bool frameHeight) frameWidth

/-- Every pixel off. -/
def Frame.blank : Frame := Vector.replicate frameWidth (Vector.replicate frameHeight false)

/-- The fault causes of R211. UNKNOWN_FAMILY is kept and no word reaches it (R98). -/
inductive Cause where
  | none
  | fetchOutOfMemory
  | unknownFamily
  | stackUnderflow
  | dataOutOfRange
  | stackOverflow
  deriving DecidableEq, Repr

/-- The engine status of R33. The three values that HALTED carries are the fault record, held once in State (log 13). -/
inductive Status where
  /-- RUNNING: the next engine step is a fetch. -/
  | running
  /-- WAIT_KEY(x): suspended in FX0A until the host supplies the key for V[x]. -/
  | waitKey (x : Nibble)
  /-- NOTIFY_PENDING(frame): a snapshot waits for a free slot. -/
  | notifyPending (frame : Frame)
  /-- HALTED(fault_cause, fault_pc, fault_info). -/
  | halted
  deriving DecidableEq, Repr

/-- Memory as the bytes that differ from the initial contents, addresses strictly rising (Memory.wf in Ops). -/
abbrev Memory := List Host.Cell

/-- The machine. The fields from `cfg` on are not in the spec's state vector: the parameters (R37), the load phase
(R240) and the model's own two fields. -/
structure State where
  /-- V[0]..V[15] (R20). -/
  v : Vector Byte 16
  /-- I (R25). -/
  i : Half
  /-- PC (R23); during execution the instruction's address plus 2. -/
  pc : Half
  /-- The call stack (R26), the top first (log 14). -/
  stack : List Half
  /-- DT (R28). -/
  dt : Byte
  /-- ST (R28). -/
  st : Byte
  /-- MEM (R32). -/
  mem : Memory
  /-- FB (R30). -/
  fb : Frame
  /-- The engine status (R33). -/
  status : Status
  /-- fault_cause (R39). -/
  faultCause : Cause
  /-- fault_pc (R39). -/
  faultPc : Half
  /-- fault_info (R39). -/
  faultInfo : Half
  /-- The notification slot (R34). -/
  slot : Option Frame
  /-- The parameters of R5; no step changes them (R37, log 1). -/
  cfg : Params
  /-- The host's `run` is still awaited (R240, R228; log 10). -/
  loading : Bool
  /-- Model's own: the events that fall before the engine's next turn, oldest first (log 6). -/
  env : List Event
  /-- Model's own: the number of free values drawn so far (log 5). -/
  draws : Nat
  deriving DecidableEq, Repr

/-- Why a run of the model stops outside its own state. The fatal errors of R211 are NOT here: the spec describes their
entry, so they are next states with status HALTED (R214, log 9). -/
inductive Fault where
  /-- Raised by State.loadImage, and so State.launch, alone: an image of more than MAX_PROGRAM_BYTES bytes is refused and
  no machine is started from it (R241). Safe: nothing runs. No step raises it (log 11). -/
  | imageTooLong
  deriving DecidableEq, Repr

/-- Why an instruction has no meaning. -/
inductive Refusal where
  /-- Raised by an arm of exec whose instruction has no meaning yet; in this model there is none. Safe. -/
  | notModelled (mnemonic : String)
  deriving DecidableEq, Repr

/-- What a step or a meaning answers. -/
abbrev Result := Host.Outcome State Fault Refusal

/-- The machine after initialisation and before the program is loaded (R240): everything zero or empty but PC = 0x200
(PROGRAM_START) and the font; memory lists nothing, since unlisted bytes read as the initial contents. -/
def State.reset : State where
  v := Vector.replicate 16 0
  i := 0
  pc := 0x200
  stack := []
  dt := 0
  st := 0
  mem := []
  fb := Frame.blank
  status := .running
  faultCause := .none
  faultPc := 0
  faultInfo := 0
  slot := none
  cfg := Config.params
  loading := true
  env := []
  draws := 0

end Sys2Proof.Machine
end

