-- ==== Sys2Proof/Machine/Ops.lean ====
section
/-! DEFINITION. The named operations every meaning is built from: registers, memory (spec/20_memory.md), the call stack
(spec/10_state.md R27), raising a fault (spec/60_exceptions.md R214) and re-initialisation, its only way out (R217). -/

namespace Sys2Proof.Machine

/-! ## Registers (R20) -/

/-- V[x]. -/
def State.reg (s : State) (x : Nibble) : Byte := s.v[x.toNat]'x.isLt

/-- V[x] <- b; VF is written like any other register (R20). -/
def State.setReg (s : State) (x : Nibble) (b : Byte) : State := { s with v := s.v.set x.toNat b x.isLt }

/-- The number of VF. -/
abbrev vf : Nibble := 0xF

/-- The value of a flag in a register: 1 or 0. -/
def flagByte (b : Bool) : Byte := if b then 1 else 0

/-- skip: PC <- PC + 2 (R8, R118). -/
def State.skipIf (s : State) (taken : Bool) : State :=
  { s with pc := if taken then s.pc + 2 else s.pc }

/-- PC_instr: the address of the executing instruction, PC - 2 (R27). -/
def State.pcInstr (s : State) : Half := s.pc - 2

/-! ## Memory (R50 to R55) -/

/-- MEM_SIZE (R5). -/
abbrev memSize : Nat := 4096

/-- What a byte nothing has written reads as: the font at 50..129 and 0 elsewhere (R32, R36, R56). -/
def Memory.initial (font : Vector Byte fontBytes) (a : Nat) : Byte :=
  if h : fontBase ≤ a ∧ a < fontBase + fontBytes then font[a - fontBase]'(by omega) else 0

/-- The byte at address a, given what an unlisted address reads as. -/
def Memory.read (font : Vector Byte fontBytes) (a : Nat) : Memory → Byte
  | [] => Memory.initial font a
  | c :: rest => if c.1 = a then c.2 else Memory.read font a rest

/-- An entry for address a in front of the rest, left out where it says nothing new. -/
def Memory.cons (font : Vector Byte fontBytes) (a : Nat) (b : Byte) (rest : Memory) : Memory :=
  if b = Memory.initial font a then rest else (a, b) :: rest

/-- The memory with byte b at address a, in canonical form. -/
def Memory.write (font : Vector Byte fontBytes) (a : Nat) (b : Byte) : Memory → Memory
  | [] => Memory.cons font a b []
  | c :: rest =>
    if a < c.1 then Memory.cons font a b (c :: rest)
    else if a = c.1 then Memory.cons font a b rest
    else c :: Memory.write font a b rest

/-- The canonical form: addresses strictly rising and below 4096, no entry equal to what an unlisted address reads as. -/
abbrev Memory.wf (font : Vector Byte fontBytes) (m : Memory) : Prop :=
  m.Pairwise (fun c d => c.1 < d.1) ∧ ∀ c ∈ m, c.1 < memSize ∧ c.2 ≠ Memory.initial font c.1

/-- MEM[a] for an address a below 4096 (R55). -/
def State.readByte (s : State) (a : Nat) : Byte := Memory.read s.cfg.font a s.mem

/-- MEM[a] <- b for an address a below 4096 (R55); an address of 4096 or more does not exist and changes nothing here,
its users check first (R53). -/
def State.writeByte (s : State) (a : Nat) (b : Byte) : State :=
  { s with mem := if a < memSize then Memory.write s.cfg.font a b s.mem else s.mem }

/-- MEM[a] <- b where `lands` says that the write is seen. -/
def State.writeByteIf (s : State) (lands : Bool) (a : Nat) (b : Byte) : State :=
  { s with mem := if lands then (s.writeByte a b).mem else s.mem }

/-- The first address of base, base + 1, .., base + n - 1 that is 4096 or more, on unbounded integers (R53, R216). -/
def firstOutOfRange (base n : Nat) : Option Nat :=
  ((List.range n).map (base + ·)).find? fun a => memSize ≤ a

/-- The bytes at those of base, base + 1, .., base + n - 1 that exist, in increasing order (R65). -/
def State.readBytes (s : State) (base n : Nat) : List Byte :=
  (((List.range n).map (base + ·)).filter (· < memSize)).map s.readByte

/-- Write the k-th, (k+1)-th, .. of a sequence of bytes at base + k, base + k + 1, .. in order (R65), each one where
`lands` says that its write is seen. -/
def State.writeBytes (lands : Nat → Bool) (base : Nat) : Nat → List Byte → State → State
  | _, [], s => s
  | k, b :: bs, s => State.writeBytes lands base (k + 1) bs (s.writeByteIf (lands k) (base + k) b)

/-- Load V[0], V[1], .., V[n-1] from base, base + 1, .. in order (R165), each one whose address exists and where `lands`
says that its write is seen. -/
def State.loadBytes (lands : Nat → Bool) (base n : Nat) (s : State) : State :=
  (List.range n).foldl
    (fun t k =>
      let r := BitVec.ofNat 4 k
      t.setReg r (if base + k < memSize ∧ lands k then t.readByte (base + k) else t.reg r)) s

/-! ## The call stack (R26, R27) -/

/-- A finite stack that holds STACK_DEPTH entries is full; an unbounded one never is. -/
def State.stackFull (s : State) : Bool :=
  match s.cfg.stackDepth with
  | .unbounded => false
  | .finite depth => depth ≤ s.stack.length

/-! ## Faults (R211 to R217) -/

/-- raise Fault(cause, info): the record is written and the engine halts; nothing else is saved or changed (R214). -/
def State.raise (s : State) (cause : Cause) (pc info : Half) : State :=
  { s with status := .halted, faultCause := cause, faultPc := pc, faultInfo := info }

/-- The raise of an executing instruction: fault_pc is PC - 2 (R211). -/
def State.raiseHere (s : State) (cause : Cause) (info : Half) : State := s.raise cause s.pcInstr info

/-- The raise of DATA_OUT_OF_RANGE for the first such address (R53), with the free old-or-new choices of R215 counted as
one draw. -/
def State.raiseData (s : State) (bad : Nat) : State :=
  ({ s with draws := s.draws + 1 } : State).raiseHere .dataOutOfRange (BitVec.ofNat 16 bad)

/-- The numbers of the causes (R211), as fault_cause[2:0] shows them. -/
def Cause.code : Cause → BitVec 3
  | .none => 0
  | .fetchOutOfMemory => 1
  | .unknownFamily => 2
  | .stackUnderflow => 3
  | .dataOutOfRange => 4
  | .stackOverflow => 5

/-- Re-initialisation (R240), the only way out of HALTED (R217): every item at its reset value, the load phase open again;
the parameters stay (R37), and so do the model's own fields (log 12). -/
def State.reinit (s : State) : State := { State.reset with cfg := s.cfg, env := s.env, draws := s.draws }

/-! ## Free values (R9) -/

/-- One free value has been drawn. -/
def State.drawn (s : State) : State := { s with draws := s.draws + 1 }

end Sys2Proof.Machine
end

