-- ==== Sys2Proof/Machine/Operands.lean ====
section
/-! DEFINITION. What the instructions make of their operand forms NNN, XNN, XY, XYN and X (spec/30_encoding.md R73): no
immediate is sign-extended, scaled or shifted. -/

namespace Sys2Proof.Machine

/-- zext_16(NNN) (R71). -/
def addrOperand (nnn : Addr) : Half := nnn.setWidth 16

/-- zext_16 of a register value (R121, R161). -/
def byteOperand (b : Byte) : Half := b.setWidth 16

/-- NNN + V[0], on 16 bits (R121). -/
def State.jumpTarget (s : State) (nnn : Addr) : Half := addrOperand nnn + byteOperand (s.reg 0)

/-- FONT_BASE + (V[X] AND 0xF) * FONT_GLYPH_BYTES (R162). -/
def fontAddress (b : Byte) : Half := BitVec.ofNat 16 (fontBase + (b &&& 0xF).toNat * fontGlyphBytes)

/-- The three decimal digits, hundreds first (R163). -/
def decimalDigits (b : Byte) : List Byte :=
  [BitVec.ofNat 8 (b.toNat / 100), BitVec.ofNat 8 (b.toNat / 10 % 10), BitVec.ofNat 8 (b.toNat % 10)]

/-- How many registers V[0]..V[X] are. -/
def blockLength (x : Nibble) : Nat := x.toNat + 1

/-- V[0]..V[X] (R164). -/
def State.regsTo (s : State) (x : Nibble) : List Byte :=
  (List.range (blockLength x)).map fun k => s.reg (BitVec.ofNat 4 k)

/-- I after FX55 and FX65 (R166). -/
def State.indexAfterBlock (s : State) (x : Nibble) : Half :=
  if s.cfg.storeLoadIncrementsI then BitVec.ofNat 16 (s.i.toNat + blockLength x) else s.i

/-- The starting column V[X] mod 64 (R193). -/
def State.spriteColumn (s : State) (x : Nibble) : Nat := (s.reg x).toNat % frameWidth

/-- The starting row V[Y] mod 32 (R193). -/
def State.spriteRow (s : State) (y : Nibble) : Nat := (s.reg y).toNat % frameHeight

/-- The value a shift works on: a legacy shift copies V[Y] to V[X] first (R142, R144). -/
def State.shiftCopy (s : State) (x y : Nibble) : State :=
  s.setReg x (if s.cfg.quirkLegacy then s.reg y else s.reg x)

end Sys2Proof.Machine
end

