-- ==== Sys2Proof/Machine/Flags.lean ====
section
/-! DEFINITION. The results and flags of spec/42_alu.md and FX1E, and the order in which result and flag are written
(R134). Exact sums first, narrowed at the end. -/

namespace Sys2Proof.Machine

/-- s mod 256 (R140). -/
def sum (a b : Byte) : Byte := BitVec.ofNat 8 (a.toNat + b.toNat)

/-- f = 1 iff the sum exceeds 255 (R140). -/
def carry (a b : Byte) : Bool := 255 < a.toNat + b.toNat

/-- (a - b) mod 256 (R141). -/
def difference (a b : Byte) : Byte := BitVec.ofNat 8 (256 + a.toNat - b.toNat)

/-- f = 1 iff a >= b, no borrow (R141). -/
def noBorrow (a b : Byte) : Bool := b.toNat ≤ a.toNat

/-- src >> 1 (R142). -/
def shiftedRight (a : Byte) : Byte := BitVec.ofNat 8 (a.toNat / 2)

/-- Bit 0, shifted out to the right (R142). -/
def lowBit (a : Byte) : Bool := a.toNat % 2 = 1

/-- (src << 1) mod 256 (R144). -/
def shiftedLeft (a : Byte) : Byte := BitVec.ofNat 8 (a.toNat * 2)

/-- Bit 7, shifted out to the left (R144). -/
def highBit (a : Byte) : Bool := 128 ≤ a.toNat

/-- FX1E's flag: the unwrapped sum exceeds 0xFFF (R161). -/
def indexOverflow (i : Half) (b : Byte) : Bool := 0xFFF < i.toNat + b.toNat

/-- FX1E's I: the sum mod 2^16 (R161). -/
def indexSum (i : Half) (b : Byte) : Half := BitVec.ofNat 16 (i.toNat + b.toNat)

/-- Write the result of `op` on V[X] and V[Y] to V[X] and the flag f to VF in the order VF_WRITE_ORDER says (R134). Under
IN_PLACE the flag goes first and `op` reads the registers again. -/
def State.writeFlagged (s : State) (x y : Nibble) (op : Byte → Byte → Byte) (f : Bool) : State :=
  match s.cfg.vfWriteOrder with
  | .flagLast => (s.setReg x (op (s.reg x) (s.reg y))).setReg vf (flagByte f)
  | .resultLast => (s.setReg vf (flagByte f)).setReg x (op (s.reg x) (s.reg y))
  | .inPlace =>
    let t := s.setReg vf (flagByte f)
    t.setReg x (op (t.reg x) (t.reg y))

/-- A logical operation: a flag writer with f = 0 when LOGIC_RESETS_VF, else no flag (R135). -/
def State.writeLogic (s : State) (x y : Nibble) (op : Byte → Byte → Byte) : State :=
  if s.cfg.logicResetsVf then s.writeFlagged x y op false else s.setReg x (op (s.reg x) (s.reg y))

end Sys2Proof.Machine
end

