-- ==== Sys2Proof/Machine/Alu.lean ====
section
/-! DEFINITION. spec/42_alu.md: register loads, arithmetic, logic, shifts and random. -/

namespace Sys2Proof.Machine

/-- LD Vx, byte (R130). -/
def execLdByte (x : Nibble) (nn : Byte) (s : State) : Result := .next (s.setReg x nn)

/-- ADD Vx, byte: wraps, no flag (R131). -/
def execAddByte (x : Nibble) (nn : Byte) (s : State) : Result := .next (s.setReg x (sum (s.reg x) nn))

/-- LD Vx, Vy (R136). -/
def execLdReg (x y : Nibble) (s : State) : Result := .next (s.setReg x (s.reg y))

/-- OR Vx, Vy (R137). -/
def execOrReg (x y : Nibble) (s : State) : Result := .next (s.writeLogic x y (· ||| ·))

/-- AND Vx, Vy (R138). -/
def execAndReg (x y : Nibble) (s : State) : Result := .next (s.writeLogic x y (· &&& ·))

/-- XOR Vx, Vy (R139). -/
def execXorReg (x y : Nibble) (s : State) : Result := .next (s.writeLogic x y (· ^^^ ·))

/-- ADD Vx, Vy (R140). -/
def execAddReg (x y : Nibble) (s : State) : Result :=
  .next (s.writeFlagged x y sum (carry (s.reg x) (s.reg y)))

/-- SUB Vx, Vy (R141). -/
def execSubReg (x y : Nibble) (s : State) : Result :=
  .next (s.writeFlagged x y difference (noBorrow (s.reg x) (s.reg y)))

/-- SUBN Vx, Vy (R143). -/
def execSubnReg (x y : Nibble) (s : State) : Result :=
  .next (s.writeFlagged x y (fun a b => difference b a) (noBorrow (s.reg y) (s.reg x)))

/-- SHR Vx, Vy (R142): after the legacy copy the shift reads V[X] alone. -/
def execShrReg (x y : Nibble) (s : State) : Result :=
  let t := s.shiftCopy x y
  .next (t.writeFlagged x x (fun a _ => shiftedRight a) (lowBit (t.reg x)))

/-- SHL Vx, Vy (R144). -/
def execShlReg (x y : Nibble) (s : State) : Result :=
  let t := s.shiftCopy x y
  .next (t.writeFlagged x x (fun a _ => shiftedLeft a) (highBit (t.reg x)))

/-- 8XY8, a no-op (R132, R97). -/
def execNop88 (_x _y : Nibble) (s : State) : Result := .next s
/-- 8XY9, a no-op (R132, R97). -/
def execNop89 (_x _y : Nibble) (s : State) : Result := .next s
/-- 8XYA, a no-op (R132, R97). -/
def execNop8A (_x _y : Nibble) (s : State) : Result := .next s
/-- 8XYB, a no-op (R132, R97). -/
def execNop8B (_x _y : Nibble) (s : State) : Result := .next s
/-- 8XYC, a no-op (R132, R97). -/
def execNop8C (_x _y : Nibble) (s : State) : Result := .next s
/-- 8XYD, a no-op (R132, R97). -/
def execNop8D (_x _y : Nibble) (s : State) : Result := .next s
/-- 8XYF, a no-op (R132, R97). -/
def execNop8F (_x _y : Nibble) (s : State) : Result := .next s

/-- RND Vx, byte: a fresh free byte AND NN (R145, R146). -/
def execRnd (x : Nibble) (nn : Byte) (s : State) : Result :=
  .next (s.drawn.setReg x (Config.randByte s.draws &&& nn))

end Sys2Proof.Machine
end

