-- ==== Sys2Proof/Machine/ControlFlow.lean ====
section
/-! DEFINITION. spec/41_control_flow.md: no-ops, jumps, calls, skips and key tests. PC is already the instruction's address
plus 2 (R91). -/

namespace Sys2Proof.Machine

/-- RET (R110). -/
def execRet (s : State) : Result :=
  match s.stack with
  | [] => .next (s.raiseHere .stackUnderflow 0)
  | target :: rest => .next { s with pc := target, stack := rest }

/-- SYS, a no-op: the fetch advance is the whole effect (R117, R97). -/
def execSys (_nnn : Addr) (s : State) : Result := .next s

/-- JP addr (R111). -/
def execJp (nnn : Addr) (s : State) : Result := .next { s with pc := addrOperand nnn }

/-- CALL addr (R112): the return address is PC; STACK_OVERFLOW carries NNN (R211). -/
def execCall (nnn : Addr) (s : State) : Result :=
  if s.stackFull then .next (s.raiseHere .stackOverflow (addrOperand nnn))
  else .next { s with pc := addrOperand nnn, stack := s.pc :: s.stack }

/-- JP V0, addr (R121). -/
def execJpV0 (nnn : Addr) (s : State) : Result := .next { s with pc := s.jumpTarget nnn }

/-- SE Vx, byte (R113). -/
def execSeByte (x : Nibble) (nn : Byte) (s : State) : Result := .next (s.skipIf (s.reg x == nn))

/-- SNE Vx, byte (R114). -/
def execSneByte (x : Nibble) (nn : Byte) (s : State) : Result := .next (s.skipIf (s.reg x != nn))

/-- SE Vx, Vy (R115); N is not examined (R76). -/
def execSeReg (x y _n : Nibble) (s : State) : Result := .next (s.skipIf (s.reg x == s.reg y))

/-- SNE Vx, Vy (R116); N is not examined (R76). -/
def execSneReg (x y _n : Nibble) (s : State) : Result := .next (s.skipIf (s.reg x != s.reg y))

/-- KeyPressed(V[X]): the host's free answer (R126). -/
def State.keyAnswer (s : State) (x : Nibble) : Bool := Config.keyPressed s.draws (s.reg x)

/-- SKP Vx (R127). -/
def execSkp (x : Nibble) (s : State) : Result := .next (s.drawn.skipIf (s.keyAnswer x))

/-- SKNP Vx (R128). -/
def execSknp (x : Nibble) (s : State) : Result := .next (s.drawn.skipIf (!s.keyAnswer x))

/-- EXNN, a no-op: no key query is made (R129, R97). -/
def execNopE (_x : Nibble) (_nn : Byte) (s : State) : Result := .next s

end Sys2Proof.Machine
end

