-- ==== Sys2Proof/Machine/Blitter.lean ====
section
/-! DEFINITION. The framebuffer's pixels, the XOR blitter and the notification (spec/45_display.md R192 to R199). -/

namespace Sys2Proof.Machine

/-- FB[c][r]; off outside the grid. -/
def Frame.get (f : Frame) (c r : Nat) : Bool :=
  if h : c < frameWidth ∧ r < frameHeight then (f[c]'h.1)[r]'h.2 else false

/-- FB[c][r] <- FB[c][r] xor p; nothing outside the grid (R195). -/
def Frame.xorPixel (f : Frame) (c r : Nat) (p : Bool) : Frame :=
  if h : c < frameWidth ∧ r < frameHeight then
    f.set c ((f[c]'h.1).set r ((f[c]'h.1)[r]'h.2 ^^ p) h.2) h.1
  else f

/-- Bit 7 - k of a sprite byte: its k-th pixel from the left (R31, R194). -/
def spritePixel (b : Byte) (k : Nat) : Bool := b.getLsbD (7 - k)

/-- One pixel of R194: the collision flag so far is set by a lit sprite pixel on a pixel that is on. -/
def composePixel (b : Byte) (c0 r : Nat) (acc : Frame × Bool) (k : Nat) : Frame × Bool :=
  (acc.1.xorPixel (c0 + k) r (spritePixel b k), acc.2 || (spritePixel b k && acc.1.get (c0 + k) r))

/-- One sprite row of R194, its eight pixels from the left. -/
def composeRow (b : Byte) (c0 r : Nat) (acc : Frame × Bool) : Frame × Bool :=
  (List.range 8).foldl (composePixel b c0 r) acc

/-- The sprite's rows from row r on, top first (R191). The flag is sticky across rows (R192). -/
def composeSprite (c0 : Nat) : Nat → List Byte → Frame × Bool → Frame × Bool
  | _, [], acc => acc
  | r, b :: bs, acc => composeSprite c0 (r + 1) bs (composeRow b c0 r acc)

/-- The pixels of `new` where `lands` says so, of `old` elsewhere; pixel FB[c][r] is item c * 32 + r, its place in
disp_frame (R215, R228). -/
def Frame.blend (lands : Nat → Bool) (old new : Frame) : Frame :=
  Vector.ofFn fun c => Vector.ofFn fun r =>
    if lands (c.val * frameHeight + r.val) then (new[c.val]'c.isLt)[r.val]'r.isLt
    else (old[c.val]'c.isLt)[r.val]'r.isLt

/-- Send one notification with a copy of FB (R197): into an empty slot, else the engine waits with it in NOTIFY_PENDING. -/
def State.notify (s : State) : State :=
  match s.slot with
  | none => { s with slot := some s.fb }
  | some _ => { s with status := .notifyPending s.fb }

/-- The engine step that places a waiting snapshot once the slot is empty and goes back to RUNNING (R197). -/
def State.placePending (s : State) (frame : Frame) : State :=
  match s.slot with
  | none => { s with slot := some frame, status := .running }
  | some _ => s

end Sys2Proof.Machine
end

