-- ==== Sys2Proof/Machine/Display.lean ====
section
/-! DEFINITION. spec/45_display.md: clear screen and sprite draw. -/

namespace Sys2Proof.Machine

/-- CLS (R190): clear, then notify; VF is unchanged. -/
def execCls (s : State) : Result := .next ({ s with fb := Frame.blank } : State).notify

/-- What the draw makes of FB and of the collision flag, with the rows whose byte exists: coordinates from the registers
before VF is reset (R193), the flag from 0 (R192). -/
def State.composed (s : State) (x y n : Nibble) : Frame × Bool :=
  composeSprite (s.spriteColumn x) (s.spriteRow y) (s.readBytes s.i.toNat n.toNat) (s.fb, false)

/-- VF after a draw stopped by DATA_OUT_OF_RANGE: its old value or one of the two the rule writes, the 0 of the reset and
the flag so far (R215, R192; log 8). Items 2048 and 2049 follow the pixels. -/
def State.vfAfterStoppedDraw (s : State) (collided : Bool) : Byte :=
  if Config.holdsNew s.draws 2048 then flagByte (collided && Config.holdsNew s.draws 2049) else s.reg vf

/-- DRW Vx, Vy, nibble (R191 to R198): all N rows are read, clipped or not (R196); one notification at the end. -/
def execDrw (x y n : Nibble) (s : State) : Result :=
  let out := s.composed x y n
  match firstOutOfRange s.i.toNat n.toNat with
  | none => .next (({ s with fb := out.1 } : State).setReg vf (flagByte out.2)).notify
  | some bad =>
    .next ((({ s with fb := Frame.blend (Config.holdsNew s.draws) s.fb out.1 } : State).setReg vf
      (s.vfAfterStoppedDraw out.2)).raiseData bad)

end Sys2Proof.Machine
end

