-- ==== Sys2Proof/Machine/IndexMemory.lean ====
section
/-! DEFINITION. spec/43_index_memory.md: the index register, font address, BCD and block transfer. -/

namespace Sys2Proof.Machine

/-- LD I, addr (R160). -/
def execLdI (nnn : Addr) (s : State) : Result := .next { s with i := addrOperand nnn }

/-- ADD I, Vx (R161): the addend is the old V[X], also where X = 15. -/
def execAddI (x : Nibble) (s : State) : Result :=
  .next (({ s with i := indexSum s.i (s.reg x) } : State).setReg vf (flagByte (indexOverflow s.i (s.reg x))))

/-- LD F, Vx (R162). -/
def execLdF (x : Nibble) (s : State) : Result := .next { s with i := fontAddress (s.reg x) }

/-- A sequence of single-byte stores from I on; on an address of 4096 or more DATA_OUT_OF_RANGE, each byte that exists old
or new (R53, R215). -/
def State.storeFromIndex (s : State) (bytes : List Byte) (done : State → State) : State :=
  match firstOutOfRange s.i.toNat bytes.length with
  | none => done (s.writeBytes (fun _ => true) s.i.toNat 0 bytes)
  | some bad => (s.writeBytes (Config.holdsNew s.draws) s.i.toNat 0 bytes).raiseData bad

/-- LD B, Vx (R163): I is not changed. -/
def execLdB (x : Nibble) (s : State) : Result := .next (s.storeFromIndex (decimalDigits (s.reg x)) id)

/-- LD [I], Vx (R164, R166). -/
def execStoreRegs (x : Nibble) (s : State) : Result :=
  .next (s.storeFromIndex (s.regsTo x) fun t => { t with i := s.indexAfterBlock x })

/-- LD Vx, [I] (R165, R166); on DATA_OUT_OF_RANGE each register whose byte exists is old or new and I stays (R215). -/
def execLoadRegs (x : Nibble) (s : State) : Result :=
  match firstOutOfRange s.i.toNat (blockLength x) with
  | none => .next { s.loadBytes (fun _ => true) s.i.toNat (blockLength x) with i := s.indexAfterBlock x }
  | some bad => .next ((s.loadBytes (Config.holdsNew s.draws) s.i.toNat (blockLength x)).raiseData bad)

/-- FXNN, a no-op (R167, R97). -/
def execNopF (_x : Nibble) (_nn : Byte) (s : State) : Result := .next s

end Sys2Proof.Machine
end

