-- ==== Sys2Proof/Machine/TimersInput.lean ====
section
/-! DEFINITION. spec/44_timers_input.md: timer access and the key wait; the tick of spec/60_exceptions.md R220. -/

namespace Sys2Proof.Machine

/-- LD Vx, DT (R180). -/
def execLdVxDt (x : Nibble) (s : State) : Result := .next (s.setReg x s.dt)

/-- LD DT, Vx (R181). -/
def execLdDtVx (x : Nibble) (s : State) : Result := .next { s with dt := s.reg x }

/-- LD ST, Vx (R182). -/
def execLdStVx (x : Nibble) (s : State) : Result := .next { s with st := s.reg x }

/-- LD Vx, K (R183): the engine waits; the key is written by the host's answer (R184). -/
def execLdVxK (x : Nibble) (s : State) : Result := .next { s with status := .waitKey x }

/-- The host's answer to a wait (R184): V[x] <- k and RUNNING. An answer nobody waits for changes nothing (log 12). -/
def State.answerKey (s : State) (key : Nibble) : State :=
  match s.status with
  | .waitKey x => { s.setReg x (key.setWidth 8) with status := .running }
  | .running | .notifyPending _ | .halted => s

/-- if T > 0 then T <- T - 1 (R220). -/
def tick (t : Byte) : Byte := if t = 0 then 0 else t - 1

end Sys2Proof.Machine
end

