-- ==== Sys2Proof/Machine/Ports.lean ====
section
/-! DEFINITION. The ports of spec/60_exceptions.md R228: what each input event does, the program load of
spec/70_reset_and_hazards.md R241, and the outputs. -/

namespace Sys2Proof.Machine

/-- load_we: accepted only before `run` (R228, log 11). -/
def State.loadByte (s : State) (addr : Addr) (data : Byte) : State :=
  if s.loading then s.writeByte addr.toNat data else s

/-- What one event of another agent does, as one atomic step. -/
def State.applyEvent (s : State) (e : Event) : State :=
  match e with
  | .tickDelay => { s with dt := tick s.dt }
  | .tickSound => { s with st := tick s.st }
  | .takeFrame => { s with slot := none }
  | .answerKey key => s.answerKey key
  | .init => s.reinit
  | .loadByte addr data => s.loadByte addr data
  | .run => { s with loading := false }

/-- PROGRAM_START and MAX_PROGRAM_BYTES (R5). -/
abbrev programStart : Nat := 0x200
abbrev maxProgramBytes : Nat := 3584

/-- The host's load of an image (R241): its bytes verbatim from 0x200 on; one that does not fit is refused. -/
def State.loadImage (s : State) (image : List Byte) : Result :=
  if image.length ≤ maxProgramBytes then .next (s.writeBytes (fun _ => true) programStart 0 image)
  else .fault .imageTooLong

/-- The launch state of R243: initialised, the image loaded, `run` given, nothing else changed. -/
def State.launch (image : List Byte) : Result :=
  match State.reset.loadImage image with
  | .next s => .next (s.applyEvent .run)
  | .fault r => .fault r
  | .refused r => .refused r

/-- disp_frame[c*32 + r] = FB[c][r] (R228). -/
def Frame.toBits (f : Frame) : BitVec 2048 := BitVec.ofFnLE fun n => f.get (n.val / frameHeight) (n.val % frameHeight)

/-- The output signals of R228. -/
structure Outputs where
  /-- disp_valid and disp_frame: the slot and its snapshot; no frame where the slot is empty. -/
  dispFrame : Option (BitVec 2048)
  /-- key_wait: status is WAIT_KEY. -/
  keyWait : Bool
  /-- st_value. -/
  stValue : Byte
  /-- halted. -/
  halted : Bool
  /-- fault_cause[2:0]. -/
  faultCause : BitVec 3
  /-- fault_pc. -/
  faultPc : Half
  /-- fault_info. -/
  faultInfo : Half
  deriving DecidableEq, Repr

/-- disp_valid. -/
def Outputs.dispValid (o : Outputs) : Bool := o.dispFrame.isSome

/-- What the host sees of a state (R228, R39). -/
def State.outputs (s : State) : Outputs where
  dispFrame := s.slot.map Frame.toBits
  keyWait := match s.status with
    | .waitKey _ => true
    | .running | .notifyPending _ | .halted => false
  stValue := s.st
  halted := s.status = .halted
  faultCause := s.faultCause.code
  faultPc := s.faultPc
  faultInfo := s.faultInfo

end Sys2Proof.Machine
end

