-- ==== Sys2Proof/Machine/Engine.lean ====
section
/-! DEFINITION. The engine's turn (spec/40_engine.md R90 to R101) and how it interleaves with the other agents
(spec/60_exceptions.md R221). -/

namespace Sys2Proof.Machine

/-- The word at PC, the byte at PC most significant (spec/20_memory.md R51). -/
def State.fetchWord (s : State) : Half :=
  wordOfBytes (s.readByte s.pc.toNat) (s.readByte (s.pc.toNat + 1))

/-- The state every meaning sees: PC <- PC + 2 (R91). -/
def State.advance (s : State) : State := { s with pc := s.pc + 2 }

/-- The fetch bound check PC >= 4095, on unbounded integers (R92). -/
def State.fetchFaults (s : State) : Bool := memSize ≤ s.pc.toNat + 1

/-- One engine step in RUNNING: bound check, fetch and advance, decode, dispatch, execution (R90, R92). -/
def State.engineStep (s : State) : Result :=
  if s.fetchFaults then .next (s.raise .fetchOutOfMemory s.pc s.pc)
  else exec (decode s.fetchWord) s.advance

/-- The engine's turn. It takes no step before `run` (R240), in WAIT_KEY (R183), in NOTIFY_PENDING on a full slot (R197) or
in HALTED (R101); none of these stops the machine, since the other agents go on (R221, R232). -/
def State.engineTurn (s : State) : Result :=
  if s.loading then .next s
  else match s.status with
    | .running => s.engineStep
    | .notifyPending frame => .next (s.placePending frame)
    | .waitKey _ => .next s
    | .halted => .next s

/-- After the engine's turn the other agents may do anything, any number of times, before its next one (R221; log 6). -/
def State.environmentNext (s : State) : State := { s with env := Config.environment s.draws, draws := s.draws + 1 }

/-- The end of the engine's turn. -/
def endTurn : Result → Result
  | .next s => .next s.environmentNext
  | .fault r => .fault r
  | .refused r => .refused r

/-- One step of the whole machine: the next event of another agent, or the engine's turn where none is left. -/
def State.machineStep (s : State) : Result :=
  match s.env with
  | e :: rest => .next (({ s with env := rest } : State).applyEvent e)
  | [] => endTurn s.engineTurn

/-- Put a word where the engine fetches next and clear what stands before the fetch: the load phase, a suspension or halt,
and events that fall before the engine's turn. -/
def State.placeWord (s : State) (word : Half) : State :=
  ({ s with status := .running, loading := false, env := [] } : State).writeByte s.pc.toNat (highByte word)
    |>.writeByte (s.pc.toNat + 1) (lowByte word)

end Sys2Proof.Machine
end

