-- ==== Sys2Proof/Machine/Step.lean ====
section
/-! DEFINITION. step and withFetchWord; both only call Machine/Engine.lean. -/

namespace Sys2Proof.Machine

/-- One step of the machine. -/
def step (s : State) : Host.Outcome State Fault Refusal := s.machineStep

/-- s with the instruction of nbits bits w, numbered as spec/opcode_table.json numbers them, where step fetches next. -/
def State.withFetchWord (s : State) (nbits w : Nat) : State := s.placeWord (BitVec.ofNat 16 (w % 2 ^ nbits))

end Sys2Proof.Machine
end

