-- ==== Sys2Proof/Safety.lean ====
section
/-! DEFINITION. The terms claims are made in: the invariants of the machine, when the engine is about to fetch, and what
an instruction leaves unchanged. -/

namespace Sys2Proof.Machine

/-! ## Invariants -/

/-- Memory is in its one canonical form. -/
def State.MemoryCanonical (s : State) : Prop := Memory.wf s.cfg.font s.mem

/-- PC is at most 0x10FE (R24) and every return address is one a CALL pushes, 2 to 4096 (R110, R112). -/
def State.PcInRange (s : State) : Prop :=
  s.pc.toNat ≤ 0x10FE ∧ ∀ a ∈ s.stack, 2 ≤ a.toNat ∧ a.toNat ≤ 4096

/-- A finite STACK_DEPTH bounds the stack (R26). -/
def State.StackWithinDepth (s : State) : Prop :=
  ∀ depth, s.cfg.stackDepth = .finite depth → s.stack.length ≤ depth

/-- The fault record is written when the engine halts and not before (R39), UNKNOWN_FAMILY never (R98), and under each
cause PC, fault_pc and fault_info stand as R211 and R215 say. The first address out of range is I where I is 4096 or
more, else 4096; I is kept (R215, R232). -/
def State.FaultRecordSound (s : State) : Prop :=
  (s.status = .halted ↔ s.faultCause ≠ .none) ∧
  (s.faultCause = .none → s.faultPc = 0 ∧ s.faultInfo = 0) ∧
  s.faultCause ≠ .unknownFamily ∧
  (s.faultCause = .fetchOutOfMemory → 4095 ≤ s.faultPc.toNat ∧ s.faultInfo = s.faultPc ∧ s.pc = s.faultPc) ∧
  (s.faultCause = .stackUnderflow → s.faultInfo = 0 ∧ s.pc = s.faultPc + 2) ∧
  (s.faultCause = .dataOutOfRange → s.faultInfo.toNat = max s.i.toNat 4096 ∧ s.pc = s.faultPc + 2) ∧
  (s.faultCause = .stackOverflow → s.faultInfo.toNat < 4096 ∧ s.pc = s.faultPc + 2)

/-- A snapshot that waits in NOTIFY_PENDING is the framebuffer (R199). -/
def State.PendingIsFramebuffer (s : State) : Prop := ∀ frame, s.status = .notifyPending frame → frame = s.fb

/-- Before `run` nothing has executed: the engine is RUNNING at 0x200 with no return address, no notification, the
fault record NONE, 0, 0, and everything else but memory zero (R240, R242). -/
def State.LoadPhaseUntouched (s : State) : Prop :=
  s.loading = true → s.status = .running ∧ s.pc = 0x200 ∧ s.stack = [] ∧ s.faultCause = .none ∧ s.faultPc = 0 ∧
    s.faultInfo = 0 ∧ s.slot = none ∧
    (∀ r, s.reg r = 0) ∧ s.i = 0 ∧ s.dt = 0 ∧ s.st = 0 ∧ s.fb = Frame.blank

/-! ## Who moves next -/

/-- The engine is about to fetch: `run` was given, the status is RUNNING, no event of another agent comes first. -/
def State.Ready (s : State) : Prop := s.env = [] ∧ s.loading = false ∧ s.status = .running

/-- The next thing that happens is the event e of another agent. -/
def State.EventIsNext (s : State) (e : Event) : Prop := s.env.head? = some e

/-- No step of the engine's own: t is s but for the model's own two fields, which the end of the engine's turn sets. -/
def OnlyTurnPassed (s t : State) : Prop := t = { s with env := t.env, draws := t.draws }

/-! ## Frames -/

/-- Every byte of memory reads as before. -/
def SameMemory (s t : State) : Prop := ∀ a, t.readByte a = s.readByte a

/-- Every general register outside the list holds what it held. -/
def SameRegsBut (ws : List Nibble) (s t : State) : Prop := ∀ r, r ∉ ws → t.reg r = s.reg r

/-- Nothing but general registers of the list changed: every other field of the state is the same. -/
def OnlyRegs (ws : List Nibble) (s t : State) : Prop :=
  t = { s with v := t.v } ∧ SameRegsBut ws s t ∧ SameMemory s t

/-- Nothing but PC changed. -/
def OnlyPc (s t : State) : Prop := t = { s with pc := t.pc } ∧ SameMemory s t

/-- Nothing but I changed. -/
def OnlyIndex (s t : State) : Prop := t = { s with i := t.i } ∧ SameMemory s t

/-- A fault was raised (R214): the record and HALTED, with PC, I, the stack, the timers, the slot, the parameters and what
else no instruction's data part writes as they were. Registers, memory and pixels are the raiser's to state. -/
def Raised (cause : Cause) (pc info : Half) (s t : State) : Prop :=
  t.status = .halted ∧ t.faultCause = cause ∧ t.faultPc = pc ∧ t.faultInfo = info ∧
  t = { s with v := t.v, mem := t.mem, fb := t.fb, draws := t.draws, status := t.status, faultCause := t.faultCause,
               faultPc := t.faultPc, faultInfo := t.faultInfo }

/-- A fault was raised and the record and status are all that changed. -/
def RaisedOnly (cause : Cause) (pc info : Half) (s t : State) : Prop :=
  Raised cause pc info s t ∧ t.v = s.v ∧ t.mem = s.mem ∧ t.fb = s.fb ∧ t.draws = s.draws

/-! ## Flags (spec/42_alu.md R134) -/

/-- t is s after the result `op` of V[X] and V[Y] and the flag f are written in the order VF_WRITE_ORDER says: for X ≠ 15
both are there (under IN_PLACE with Y = 15 the operation reads the new VF); for X = 15 VF holds the flag, the result, or
the result recomputed on the flag. -/
def FlaggedWrite (x y : Nibble) (op : Byte → Byte → Byte) (f : Bool) (s t : State) : Prop :=
  OnlyRegs [x, vf] s t ∧
  (x ≠ vf → t.reg vf = flagByte f) ∧
  (x ≠ vf → y ≠ vf ∨ s.cfg.vfWriteOrder ≠ .inPlace → t.reg x = op (s.reg x) (s.reg y)) ∧
  (x ≠ vf → y = vf → s.cfg.vfWriteOrder = .inPlace → t.reg x = op (s.reg x) (flagByte f)) ∧
  (x = vf → s.cfg.vfWriteOrder = .flagLast → t.reg vf = flagByte f) ∧
  (x = vf → s.cfg.vfWriteOrder = .resultLast → t.reg vf = op (s.reg vf) (s.reg y)) ∧
  (x = vf → s.cfg.vfWriteOrder = .inPlace →
    t.reg vf = op (flagByte f) (if y = vf then flagByte f else s.reg y))

/-- t is s after a shift of the value src: result and flag in the order VF_WRITE_ORDER says (R134, R142, R144). -/
def ShiftWrite (x : Nibble) (src : Byte) (shift : Byte → Byte) (f : Bool) (s t : State) : Prop :=
  OnlyRegs [x, vf] s t ∧
  (x ≠ vf → t.reg vf = flagByte f ∧ t.reg x = shift src) ∧
  (x = vf → s.cfg.vfWriteOrder = .flagLast → t.reg vf = flagByte f) ∧
  (x = vf → s.cfg.vfWriteOrder = .resultLast → t.reg vf = shift src) ∧
  (x = vf → s.cfg.vfWriteOrder = .inPlace → t.reg vf = shift (flagByte f))

/-! ## Who writes what -/

/-- The general registers an instruction may write (R21, R22): its destination, and VF for a flag writer. FX0A writes
through the host's answer, not here (R184). -/
def writtenRegs (cfg : Params) : Instr → List Nibble
  | .ldByte x _ | .addByte x _ | .ldReg x _ | .rnd x _ | .ldVxDt x => [x]
  | .orReg x _ | .andReg x _ | .xorReg x _ => if cfg.logicResetsVf then [x, vf] else [x]
  | .addReg x _ | .subReg x _ | .shrReg x _ | .subnReg x _ | .shlReg x _ => [x, vf]
  | .addI _ | .drw _ _ _ => [vf]
  | .loadRegs x => (List.range (x.toNat + 1)).map (BitVec.ofNat 4)
  | .cls | .ret | .sys _ | .jp _ | .call _ | .seByte _ _ | .sneByte _ _ | .seReg _ _ _ | .sneReg _ _ _
  | .nop88 _ _ | .nop89 _ _ | .nop8A _ _ | .nop8B _ _ | .nop8C _ _ | .nop8D _ _ | .nop8F _ _ | .ldI _ | .jpV0 _
  | .skp _ | .sknp _ | .nopE _ _ | .ldVxK _ | .ldDtVx _ | .ldStVx _ | .ldF _ | .ldB _ | .storeRegs _ | .nopF _ _ => []

/-- The instruction writes I (R25): ANNN, FX1E, FX29, and FX55 and FX65 when STORE_LOAD_INCREMENTS_I. -/
def writesIndex (cfg : Params) (i : Instr) : Prop :=
  (∃ nnn, i = .ldI nnn) ∨ (∃ x, i = .addI x ∨ i = .ldF x) ∨
  (cfg.storeLoadIncrementsI = true ∧ ∃ x, i = .storeRegs x ∨ i = .loadRegs x)

/-- The instruction stores to memory: FX33 or FX55 (R50). -/
def storesToMemory (i : Instr) : Prop := ∃ x, i = .ldB x ∨ i = .storeRegs x

/-- The instruction changes the framebuffer: 00E0 or DXYN (R30). -/
def changesFramebuffer (i : Instr) : Prop := i = .cls ∨ ∃ x y n, i = .drw x y n

/-- The words of R79, by their fields. -/
def NoOpWord (w : Half) : Prop :=
  (fieldF w = 0x0 ∧ fieldNNN w ≠ 0x0E0 ∧ fieldNNN w ≠ 0x0EE) ∨
  (fieldF w = 0x8 ∧ fieldN w ∈ ([0x8, 0x9, 0xA, 0xB, 0xC, 0xD, 0xF] : List Nibble)) ∨
  (fieldF w = 0xE ∧ fieldNN w ∉ ([0x9E, 0xA1] : List Byte)) ∨
  (fieldF w = 0xF ∧ fieldNN w ∉ ([0x07, 0x0A, 0x15, 0x18, 0x1E, 0x29, 0x33, 0x55, 0x65] : List Byte))

/-! ## Display (spec/45_display.md) -/

/-- The sprite's pixel at column c, row r of the screen, for a sprite of n rows at I whose corner is (c0, r0): bit 7 is the
leftmost (R194); dark outside the sprite. -/
def State.spriteAt (s : State) (n c0 r0 c r : Nat) : Bool :=
  decide (c0 ≤ c ∧ c < c0 + 8 ∧ r0 ≤ r ∧ r < r0 + n) &&
    (s.readByte (s.i.toNat + (r - r0))).getLsbD (7 - (c - c0))

/-- One notification with the framebuffer of t was sent (R197): placed in an empty slot, or waiting on a full one. -/
def Notified (s t : State) : Prop :=
  (s.slot = none → t.slot = some t.fb ∧ t.status = s.status) ∧
  (s.slot ≠ none → t.slot = s.slot ∧ t.status = .notifyPending t.fb)

/-- Nothing changed but VF, pixels, and what the notification sets. -/
def OnlyDrawn (s t : State) : Prop :=
  t = { s with v := t.v, fb := t.fb, slot := t.slot, status := t.status } ∧ SameRegsBut [vf] s t ∧ SameMemory s t

end Sys2Proof.Machine
end

