-- ==== Sys2Proof/Certificates/Slice0/Obligations.lean ====
section
/-! DEFINITION. The statements for the provers: Sys2Proof/Certificates/Slice0. Each says in its docstring which rules of
spec/ it formalises. exec sees the state after the fetch advance (R91): there PC is the instruction's address plus 2. -/

open Sys2Proof Sys2Proof.Machine

/-! ## Reset, load and the other agents -/

/-- R240's table: every item of the state after initialisation. `loading` is its "takes no step until `run`" (log 10). -/
def Obligations.ResetLeavesEverythingZeroed : Prop :=
  (∀ r, State.reset.reg r = 0) ∧ State.reset.pc = 0x200 ∧ State.reset.i = 0 ∧ State.reset.stack = [] ∧
  State.reset.dt = 0 ∧ State.reset.st = 0 ∧ (∀ c r, c < 64 → r < 32 → Frame.get State.reset.fb c r = false) ∧
  (∀ a, a < 50 ∨ (130 ≤ a ∧ a < 4096) → State.reset.readByte a = 0) ∧
  (∀ (k : Nat) (h : k < 80), State.reset.readByte (50 + k) = State.reset.cfg.font[k]) ∧
  State.reset.status = .running ∧ State.reset.slot = none ∧ State.reset.faultCause = .none ∧
  State.reset.faultPc = 0 ∧ State.reset.faultInfo = 0 ∧ State.reset.loading = true

/-- The invariants of the statements below hold at reset. -/
def Obligations.ResetMeetsEveryInvariant : Prop :=
  State.reset.MemoryCanonical ∧ State.reset.PcInRange ∧ State.reset.StackWithinDepth ∧
  State.reset.FaultRecordSound ∧ State.reset.PendingIsFramebuffer ∧ State.reset.LoadPhaseUntouched

/-- R241 and R243: an image of at most 3584 bytes stands verbatim from 0x200 on in the launch state, which is otherwise
the reset state with `run` given; a longer one is refused and no machine starts. -/
def Obligations.LaunchPlacesImageVerbatim : Prop :=
  ∀ image : List Byte,
    (image.length ≤ 3584 → ∃ t, State.launch image = .next t ∧
      t = { State.reset with mem := t.mem, loading := false } ∧ t.MemoryCanonical ∧
      (∀ (k : Nat) (h : k < image.length), t.readByte (0x200 + k) = image[k]) ∧
      (∀ a, a < 0x200 ∨ 0x200 + image.length ≤ a → t.readByte a = State.reset.readByte a)) ∧
    (3584 < image.length → State.launch image = .fault .imageTooLong)

/-- R90, R91, R51: with no event of another agent first and the engine RUNNING, one step is the fetch of the two bytes at
PC (the first the most significant), the advance of PC by 2, the decoded instruction's execution, and the end of the
engine's turn (endTurn: the other agents may move, log 6). The instruction is well-formed. -/
def Obligations.StepRunsDecodedInstruction : Prop :=
  ∀ (s : State) (i : Instr), s.Ready → s.pc.toNat + 1 ≤ 4095 →
    decode (s.readByte s.pc.toNat ++ s.readByte (s.pc.toNat + 1)) = i →
    i.wellFormed = true ∧ step s = endTurn (exec i { s with pc := s.pc + 2 })

/-- R92, R215: a fetch at 4095 or more halts with FETCH_OUT_OF_MEMORY, fault_pc = fault_info = PC, PC not advanced and
nothing else changed; a fetch at 4094 reads bytes 4094 and 4095. -/
def Obligations.FetchPastEndFaults : Prop :=
  ∀ s : State, s.Ready →
    (4095 ≤ s.pc.toNat → ∃ t, step s = .next t ∧ t.status = .halted ∧ t.faultCause = .fetchOutOfMemory ∧
      t.faultPc = s.pc ∧ t.faultInfo = s.pc ∧
      t = { s with status := t.status, faultCause := t.faultCause, faultPc := t.faultPc, faultInfo := t.faultInfo,
                   env := t.env, draws := t.draws }) ∧
    (s.pc.toNat = 4094 →
      step s = endTurn (exec (decode (s.readByte 4094 ++ s.readByte 4095)) { s with pc := s.pc + 2 }))

/-- R101, R183, R197, R240: before `run`, in WAIT_KEY, in HALTED, and in NOTIFY_PENDING on a full slot, the engine's turn
changes nothing. -/
def Obligations.SuspendedEngineTakesNoStep : Prop :=
  ∀ s : State, s.env = [] →
    (s.loading = true ∨ (∃ x, s.status = .waitKey x) ∨ s.status = .halted ∨
      ((∃ frame, s.status = .notifyPending frame) ∧ s.slot ≠ none)) →
    ∃ t, step s = .next t ∧ OnlyTurnPassed s t

/-- R184: in WAIT_KEY(x) the host's key k is written to V[x] and the engine is RUNNING, as one step; nothing else
changes. Any k in 0..15 is taken. -/
def Obligations.KeyAnswerResumesEngine : Prop :=
  ∀ (s : State) (x key : Nibble) (rest : List Event), s.status = .waitKey x → s.env = .answerKey key :: rest →
    ∃ t, step s = .next t ∧ t.status = .running ∧ (t.reg x).toNat = key.toNat ∧
      t = { s with v := t.v, status := t.status, env := rest } ∧ SameRegsBut [x] s t ∧ SameMemory s t

/-- R197: once the slot is empty, one engine step places the waiting snapshot and returns to RUNNING. -/
def Obligations.PendingSnapshotIsPlaced : Prop :=
  ∀ (s : State) (frame : Frame), s.env = [] → s.loading = false → s.status = .notifyPending frame → s.slot = none →
    ∃ t, step s = .next t ∧ t.slot = some frame ∧ t.status = .running ∧
      t = { s with slot := t.slot, status := t.status, env := t.env, draws := t.draws }

/-- R220: one tick of a timer takes 1 from it if it is not 0, whatever the engine's status, and changes nothing else (the
event itself is consumed). -/
def Obligations.TickDecrementsOneTimer : Prop :=
  ∀ (s : State) (rest : List Event),
    (s.env = .tickDelay :: rest → ∃ t, step s = .next t ∧ t.dt.toNat = s.dt.toNat - 1 ∧
      t = { s with dt := t.dt, env := rest }) ∧
    (s.env = .tickSound :: rest → ∃ t, step s = .next t ∧ t.st.toNat = s.st.toNat - 1 ∧
      t = { s with st := t.st, env := rest })

/-- R220: a timer at N reaches 0 after N ticks and further ticks leave it at 0. -/
def Obligations.TimerReachesZeroAfterItsTicks : Prop :=
  ∀ (n : Nat) (s : State) (rest : List Event),
    (s.env = List.replicate n .tickDelay ++ rest → s.dt.toNat ≤ n →
      ∃ t, Host.Core.run Sys2Proof.core n s = .next t ∧ t.dt = 0 ∧ t = { s with dt := t.dt, env := rest }) ∧
    (s.env = List.replicate n .tickSound ++ rest → s.st.toNat ≤ n →
      ∃ t, Host.Core.run Sys2Proof.core n s = .next t ∧ t.st = 0 ∧ t = { s with st := t.st, env := rest })

/-- R240, R217, R37: `init`, in any state, HALTED too, leaves the reset state with the parameters as they were (the
model's own two fields go on, log 12). -/
def Obligations.InitRestoresResetState : Prop :=
  ∀ (s : State) (rest : List Event), s.env = .init :: rest →
    step s = .next { State.reset with cfg := s.cfg, env := rest, draws := s.draws }

/-- R225, R228, R241: taking a snapshot empties the slot; a load write lands before `run` and is not accepted after it;
`run` ends the load phase. Each changes nothing else. The model's choices: a load write lands at any of the 4096
addresses, below 0x200 too (log 11); a take of an empty slot and a second `run` change nothing (log 12); an event comes
as the head of State.env (log 6). -/
def Obligations.HostEventsDoOnlyTheirEffect : Prop :=
  ∀ (s : State) (rest : List Event),
    (s.env = .takeFrame :: rest → step s = .next { s with slot := none, env := rest }) ∧
    (s.env = .run :: rest → step s = .next { s with loading := false, env := rest }) ∧
    (∀ addr data, s.env = .loadByte addr data :: rest →
      (s.loading = false → step s = .next { s with env := rest }) ∧
      (s.loading = true → s.MemoryCanonical → ∃ t, step s = .next t ∧ t = { s with mem := t.mem, env := rest } ∧
        ∀ a, t.readByte a = if a = addr.toNat then data else s.readByte a))

/-- R72, R212, R101: exec and step answer a next state for every instruction and in every state. -/
def Obligations.EveryStepAnswersNext : Prop :=
  (∀ (i : Instr) (s : State), ∃ t, exec i s = .next t) ∧ ∀ s : State, ∃ t, step s = .next t

/-- R228: the output signals; disp_frame[c*32 + r] = FB[c][r]; the fault record's code as R211 numbers it. -/
def Obligations.OutputsShowTheState : Prop :=
  ∀ s : State,
    (s.outputs.dispValid = true ↔ s.slot ≠ none) ∧
    (∀ frame bits, s.slot = some frame → s.outputs.dispFrame = some bits →
      ∀ c r, c < 64 → r < 32 → bits.getLsbD (c * 32 + r) = Frame.get frame c r) ∧
    (s.outputs.keyWait = true ↔ ∃ x, s.status = .waitKey x) ∧ s.outputs.stValue = s.st ∧
    (s.outputs.halted = true ↔ s.status = .halted) ∧ s.outputs.faultPc = s.faultPc ∧
    s.outputs.faultInfo = s.faultInfo ∧
    s.outputs.faultCause = (match s.faultCause with
      | .none => 0 | .fetchOutOfMemory => 1 | .unknownFamily => 2 | .stackUnderflow => 3 | .dataOutOfRange => 4
      | .stackOverflow => 5)

/-! ## Decoding -/

/-- R74: words written out from the map, one of each family, as decodeTableWord reads them. -/
def Obligations.DecodesWordsOfEachFamily : Prop :=
  decodeTableWord 16 0x00E0 = some .cls ∧ decodeTableWord 16 0x00EE = some .ret ∧
  decodeTableWord 16 0x0123 = some (.sys 0x123) ∧ decodeTableWord 16 0x1ABC = some (.jp 0xABC) ∧
  decodeTableWord 16 0x2210 = some (.call 0x210) ∧ decodeTableWord 16 0x3205 = some (.seByte 2 0x05) ∧
  decodeTableWord 16 0x4205 = some (.sneByte 2 0x05) ∧ decodeTableWord 16 0x5121 = some (.seReg 1 2 1) ∧
  decodeTableWord 16 0x6A7B = some (.ldByte 0xA 0x7B) ∧ decodeTableWord 16 0x7001 = some (.addByte 0 0x01) ∧
  decodeTableWord 16 0x8456 = some (.shrReg 4 5) ∧ decodeTableWord 16 0x8F1E = some (.shlReg 0xF 1) ∧
  decodeTableWord 16 0x9120 = some (.sneReg 1 2 0) ∧ decodeTableWord 16 0xA205 = some (.ldI 0x205) ∧
  decodeTableWord 16 0xB300 = some (.jpV0 0x300) ∧ decodeTableWord 16 0xC30F = some (.rnd 3 0x0F) ∧
  decodeTableWord 16 0xD125 = some (.drw 1 2 5) ∧ decodeTableWord 16 0xE39E = some (.skp 3) ∧
  decodeTableWord 16 0xE3A1 = some (.sknp 3) ∧ decodeTableWord 16 0xFA33 = some (.ldB 0xA) ∧
  decodeTableWord 16 0xF0FF = some (.nopF 0 0xFF)

/-- R71: the fields of the byte pair (b1, b2), as numbers. -/
def Obligations.FieldsOfTheBytePair : Prop :=
  ∀ b1 b2 : Byte,
    (fieldF (wordOfBytes b1 b2)).toNat = b1.toNat / 16 ∧ (fieldX (wordOfBytes b1 b2)).toNat = b1.toNat % 16 ∧
    (fieldY (wordOfBytes b1 b2)).toNat = b2.toNat / 16 ∧ (fieldN (wordOfBytes b1 b2)).toNat = b2.toNat % 16 ∧
    fieldNN (wordOfBytes b1 b2) = b2 ∧
    (fieldNNN (wordOfBytes b1 b2)).toNat =
      (fieldX (wordOfBytes b1 b2)).toNat * 256 + (fieldY (wordOfBytes b1 b2)).toNat * 16 +
        (fieldN (wordOfBytes b1 b2)).toNat

/-- R70, R74: decoding the word of a well-formed instruction gives it back, for every instruction and every operand. -/
def Obligations.DecodeInvertsEncode : Prop := ∀ i : Instr, i.wellFormed = true → decode (encode i) = i

/-- R72, R74: every word decodes to a well-formed instruction whose word it is, so no two words share a meaning and no
bit is lost. -/
def Obligations.EncodeInvertsDecode : Prop := ∀ w : Half, (decode w).wellFormed = true ∧ encode (decode w) = w

/-- R79: the words that decode to a no-op are exactly the listed ones. -/
def Obligations.NoOpWordsAreExactlyTheListed : Prop := ∀ w : Half, (decode w).isNoOp = true ↔ NoOpWord w

/-- R79: every word selects exactly one row of the opcode table, and it is the row of the decoded instruction. -/
def Obligations.TableSelectsTheDecodedRow : Prop :=
  ∀ w : Half, (selectedRows w).map OpcodeRow.mnemonic = [(decode w).mnemonic]

/-! ## No-ops and control transfer -/

/-- R97, R117, R129, R167 and R132's no-op words: nothing but the fetch advance. As meanings, and as a whole step on a
word of R79. -/
def Obligations.NoOpsOnlyAdvancePc : Prop :=
  (∀ (s : State) (nnn : Addr) (x y : Nibble) (nn : Byte),
    exec (.sys nnn) s = .next s ∧ exec (.nop88 x y) s = .next s ∧ exec (.nop89 x y) s = .next s ∧
    exec (.nop8A x y) s = .next s ∧ exec (.nop8B x y) s = .next s ∧ exec (.nop8C x y) s = .next s ∧
    exec (.nop8D x y) s = .next s ∧ exec (.nop8F x y) s = .next s ∧ exec (.nopE x nn) s = .next s ∧
    exec (.nopF x nn) s = .next s) ∧
  ∀ s : State, s.Ready → s.pc.toNat + 1 ≤ 4095 →
    NoOpWord (s.readByte s.pc.toNat ++ s.readByte (s.pc.toNat + 1)) →
    ∃ t, step s = .next t ∧ t = { s with pc := s.pc + 2, env := t.env, draws := t.draws }

/-- R111, R121: PC <- NNN; PC <- NNN + V[0], which never wraps. -/
def Obligations.JumpsSetPc : Prop :=
  (∀ w, fieldF w = 0x1 → decode w = .jp (fieldNNN w)) ∧ (∀ w, fieldF w = 0xB → decode w = .jpV0 (fieldNNN w)) ∧
  ∀ (s : State) (nnn : Addr),
    (∃ t, exec (.jp nnn) s = .next t ∧ OnlyPc s t ∧ t.pc.toNat = nnn.toNat) ∧
    (∃ t, exec (.jpV0 nnn) s = .next t ∧ OnlyPc s t ∧ t.pc.toNat = nnn.toNat + (s.reg 0).toNat ∧ t.pc.toNat ≤ 0x10FE)

/-- R112, R27, R211: CALL pushes PC (the instruction's address plus 2) and jumps; on a full finite stack it halts with
STACK_OVERFLOW, fault_info = NNN, nothing pushed and PC as it was. -/
def Obligations.CallPushesReturnAddress : Prop :=
  (∀ w, fieldF w = 0x2 → decode w = .call (fieldNNN w)) ∧
  ∀ (s : State) (nnn : Addr),
    ((s.cfg.stackDepth = .unbounded ∨ ∃ depth, s.cfg.stackDepth = .finite depth ∧ s.stack.length < depth) →
      ∃ t, exec (.call nnn) s = .next t ∧ t.stack = s.pc :: s.stack ∧ t.pc.toNat = nnn.toNat ∧
        t = { s with pc := t.pc, stack := t.stack } ∧ SameMemory s t) ∧
    (∀ depth, s.cfg.stackDepth = .finite depth → depth ≤ s.stack.length →
      ∃ t, exec (.call nnn) s = .next t ∧ RaisedOnly .stackOverflow (s.pc - 2) t.faultInfo s t ∧
        t.faultInfo.toNat = nnn.toNat)

/-- R110, R27, R211: RET pops the top into PC; on an empty stack it halts with STACK_UNDERFLOW, fault_info = 0, and PC as
it was. -/
def Obligations.ReturnPopsIntoPc : Prop :=
  decode 0x00EE = .ret ∧
  ∀ s : State,
    (∀ target rest, s.stack = target :: rest →
      ∃ t, exec .ret s = .next t ∧ t.pc = target ∧ t.stack = rest ∧ t = { s with pc := t.pc, stack := t.stack } ∧
        SameMemory s t) ∧
    (s.stack = [] → ∃ t, exec .ret s = .next t ∧ RaisedOnly .stackUnderflow (s.pc - 2) 0 s t)

/-- R113 to R116, R118, R76: the four register skips; N of families 5 and 9 is not examined (the spec's decision D9,
log 16). -/
def Obligations.SkipsCompareRegisters : Prop :=
  (∀ w, fieldF w = 0x3 → decode w = .seByte (fieldX w) (fieldNN w)) ∧
  (∀ w, fieldF w = 0x4 → decode w = .sneByte (fieldX w) (fieldNN w)) ∧
  (∀ w, fieldF w = 0x5 → decode w = .seReg (fieldX w) (fieldY w) (fieldN w)) ∧
  (∀ w, fieldF w = 0x9 → decode w = .sneReg (fieldX w) (fieldY w) (fieldN w)) ∧
  ∀ (s : State) (x y n : Nibble) (nn : Byte),
    (∃ t, exec (.seByte x nn) s = .next t ∧ OnlyPc s t ∧ t.pc = if s.reg x = nn then s.pc + 2 else s.pc) ∧
    (∃ t, exec (.sneByte x nn) s = .next t ∧ OnlyPc s t ∧ t.pc = if s.reg x = nn then s.pc else s.pc + 2) ∧
    (∃ t, exec (.seReg x y n) s = .next t ∧ OnlyPc s t ∧ t.pc = if s.reg x = s.reg y then s.pc + 2 else s.pc) ∧
    (∃ t, exec (.sneReg x y n) s = .next t ∧ OnlyPc s t ∧ t.pc = if s.reg x = s.reg y then s.pc else s.pc + 2)

/-- R126 to R128: SKP and SKNP skip on the host's answer for V[X], which is a free value drawn afresh, for any V[X]
(log 5); nothing else but the count of draws changes. -/
def Obligations.KeySkipsFollowTheHostsAnswer : Prop :=
  (∀ w, fieldF w = 0xE → fieldNN w = 0x9E → decode w = .skp (fieldX w)) ∧
  (∀ w, fieldF w = 0xE → fieldNN w = 0xA1 → decode w = .sknp (fieldX w)) ∧
  ∀ (s : State) (x : Nibble),
    (∃ t, exec (.skp x) s = .next t ∧ t = { s with pc := t.pc, draws := s.draws + 1 } ∧ SameMemory s t ∧
      t.pc = if Config.keyPressed s.draws (s.reg x) then s.pc + 2 else s.pc) ∧
    (∃ t, exec (.sknp x) s = .next t ∧ t = { s with pc := t.pc, draws := s.draws + 1 } ∧ SameMemory s t ∧
      t.pc = if Config.keyPressed s.draws (s.reg x) then s.pc else s.pc + 2)

/-! ## Loads, arithmetic, logic, shifts, random -/

/-- R130, R131: V[X] <- NN; V[X] <- V[X] + NN mod 256 with no flag. Only V[X] changes, so VF only where X = 15. -/
def Obligations.ImmediateLoadAndAddWriteOnlyTheirDestination : Prop :=
  (∀ w, fieldF w = 0x6 → decode w = .ldByte (fieldX w) (fieldNN w)) ∧
  (∀ w, fieldF w = 0x7 → decode w = .addByte (fieldX w) (fieldNN w)) ∧
  ∀ (s : State) (x : Nibble) (nn : Byte),
    (∃ t, exec (.ldByte x nn) s = .next t ∧ OnlyRegs [x] s t ∧ t.reg x = nn) ∧
    (∃ t, exec (.addByte x nn) s = .next t ∧ OnlyRegs [x] s t ∧
      (t.reg x).toNat = ((s.reg x).toNat + nn.toNat) % 256)

/-- R135 to R139 (the five meanings of family 8 that the spec supplies from general knowledge, log 15): LD writes V[X]
alone; OR, AND, XOR write V[X] alone, or with LOGIC_RESETS_VF the flag 0 too in the order of R134. -/
def Obligations.RegisterLoadAndLogicAndTheirFlag : Prop :=
  (∀ w, fieldF w = 0x8 → fieldN w = 0x0 → decode w = .ldReg (fieldX w) (fieldY w)) ∧
  (∀ w, fieldF w = 0x8 → fieldN w = 0x1 → decode w = .orReg (fieldX w) (fieldY w)) ∧
  (∀ w, fieldF w = 0x8 → fieldN w = 0x2 → decode w = .andReg (fieldX w) (fieldY w)) ∧
  (∀ w, fieldF w = 0x8 → fieldN w = 0x3 → decode w = .xorReg (fieldX w) (fieldY w)) ∧
  ∀ (s : State) (x y : Nibble),
    (∃ t, exec (.ldReg x y) s = .next t ∧ OnlyRegs [x] s t ∧ t.reg x = s.reg y) ∧
    (∃ t, exec (.orReg x y) s = .next t ∧
      (s.cfg.logicResetsVf = false → OnlyRegs [x] s t ∧ t.reg x = s.reg x ||| s.reg y) ∧
      (s.cfg.logicResetsVf = true → FlaggedWrite x y (· ||| ·) false s t)) ∧
    (∃ t, exec (.andReg x y) s = .next t ∧
      (s.cfg.logicResetsVf = false → OnlyRegs [x] s t ∧ t.reg x = s.reg x &&& s.reg y) ∧
      (s.cfg.logicResetsVf = true → FlaggedWrite x y (· &&& ·) false s t)) ∧
    (∃ t, exec (.xorReg x y) s = .next t ∧
      (s.cfg.logicResetsVf = false → OnlyRegs [x] s t ∧ t.reg x = s.reg x ^^^ s.reg y) ∧
      (s.cfg.logicResetsVf = true → FlaggedWrite x y (· ^^^ ·) false s t))

/-- R140, R141, R133, R134: ADD is V[X] + V[Y] mod 256 with VF = 1 iff the sum exceeds 255, SUB is V[X] - V[Y] mod 256
with VF = 1 iff there is no borrow; both in the order VF_WRITE_ORDER says. -/
def Obligations.AddSetsCarryAndSubNoBorrow : Prop :=
  (∀ w, fieldF w = 0x8 → fieldN w = 0x4 → decode w = .addReg (fieldX w) (fieldY w)) ∧
  (∀ w, fieldF w = 0x8 → fieldN w = 0x5 → decode w = .subReg (fieldX w) (fieldY w)) ∧
  ∀ (s : State) (x y : Nibble),
    (∃ t, exec (.addReg x y) s = .next t ∧
      FlaggedWrite x y (fun a b => a + b) (decide (255 < (s.reg x).toNat + (s.reg y).toNat)) s t) ∧
    (∃ t, exec (.subReg x y) s = .next t ∧
      FlaggedWrite x y (fun a b => a - b) (decide ((s.reg y).toNat ≤ (s.reg x).toNat)) s t)

/-- R143 (supplied from general knowledge, log 15), R133, R134: SUBN is V[Y] - V[X] mod 256; VF = 1 iff there is no
borrow. -/
def Obligations.ReverseSubtractSetsNoBorrow : Prop :=
  (∀ w, fieldF w = 0x8 → fieldN w = 0x7 → decode w = .subnReg (fieldX w) (fieldY w)) ∧
  ∀ (s : State) (x y : Nibble), ∃ t, exec (.subnReg x y) s = .next t ∧
    FlaggedWrite x y (fun a b => b - a) (decide ((s.reg x).toNat ≤ (s.reg y).toNat)) s t

/-- R142, R144, R134: the shifts of V[Y] (legacy) or V[X] (SUPER-CHIP) by one into V[X], VF = the bit shifted out. -/
def Obligations.ShiftsFollowTheQuirk : Prop :=
  (∀ w, fieldF w = 0x8 → fieldN w = 0x6 → decode w = .shrReg (fieldX w) (fieldY w)) ∧
  (∀ w, fieldF w = 0x8 → fieldN w = 0xE → decode w = .shlReg (fieldX w) (fieldY w)) ∧
  ∀ (s : State) (x y : Nibble) (src : Byte), src = (if s.cfg.quirkLegacy then s.reg y else s.reg x) →
    (∃ t, exec (.shrReg x y) s = .next t ∧ ShiftWrite x src (· >>> 1) (src.getLsbD 0) s t) ∧
    (∃ t, exec (.shlReg x y) s = .next t ∧ ShiftWrite x src (· <<< 1) (src.getLsbD 7) s t)

/-- R145, R146: V[X] <- a fresh free byte AND NN (log 5); the count of draws goes up by one and nothing else changes. -/
def Obligations.RandomByteIsMasked : Prop :=
  (∀ w, fieldF w = 0xC → decode w = .rnd (fieldX w) (fieldNN w)) ∧
  ∀ (s : State) (x : Nibble) (nn : Byte), ∃ t, exec (.rnd x nn) s = .next t ∧
    t.reg x = Config.randByte s.draws &&& nn ∧ t = { s with v := t.v, draws := s.draws + 1 } ∧
    SameRegsBut [x] s t ∧ SameMemory s t

/-! ## Index register and memory -/

/-- R160, R162: I <- NNN; I <- 50 + 5 * (V[X] AND 0xF). -/
def Obligations.IndexLoads : Prop :=
  (∀ w, fieldF w = 0xA → decode w = .ldI (fieldNNN w)) ∧
  (∀ w, fieldF w = 0xF → fieldNN w = 0x29 → decode w = .ldF (fieldX w)) ∧
  ∀ (s : State) (nnn : Addr) (x : Nibble),
    (∃ t, exec (.ldI nnn) s = .next t ∧ OnlyIndex s t ∧ t.i.toNat = nnn.toNat) ∧
    (∃ t, exec (.ldF x) s = .next t ∧ OnlyIndex s t ∧ t.i.toNat = 50 + 5 * ((s.reg x).toNat % 16))

/-- R161: I <- I + V[X] mod 2^16, VF = 1 iff the unwrapped sum exceeds 0xFFF, else 0 (the spec's
decision D13, log 16); the addend is the old V[X]. -/
def Obligations.AddIndexSetsOverflow : Prop :=
  (∀ w, fieldF w = 0xF → fieldNN w = 0x1E → decode w = .addI (fieldX w)) ∧
  ∀ (s : State) (x : Nibble), ∃ t, exec (.addI x) s = .next t ∧
    t.i.toNat = (s.i.toNat + (s.reg x).toNat) % 65536 ∧
    t.reg vf = (if 0xFFF < s.i.toNat + (s.reg x).toNat then 1 else 0) ∧
    t = { s with i := t.i, v := t.v } ∧ SameRegsBut [vf] s t ∧ SameMemory s t

/-- R163: hundreds, tens and units of V[X] at I, I+1, I+2, where these exist; nothing else changes, I neither. -/
def Obligations.DecimalDigitsAreStored : Prop :=
  (∀ w, fieldF w = 0xF → fieldNN w = 0x33 → decode w = .ldB (fieldX w)) ∧
  ∀ (s : State) (x : Nibble), s.MemoryCanonical → s.i.toNat + 2 < 4096 → ∃ t, exec (.ldB x) s = .next t ∧
    (t.readByte s.i.toNat).toNat = (s.reg x).toNat / 100 ∧
    (t.readByte (s.i.toNat + 1)).toNat = (s.reg x).toNat / 10 % 10 ∧
    (t.readByte (s.i.toNat + 2)).toNat = (s.reg x).toNat % 10 ∧
    t = { s with mem := t.mem } ∧
    ∀ a, a < s.i.toNat ∨ s.i.toNat + 2 < a → t.readByte a = s.readByte a

/-- R164, R166: V[0] to V[X] at I to I + X, where these exist; I moves on by X + 1 if STORE_LOAD_INCREMENTS_I. -/
def Obligations.BlockStoreWritesRegisters : Prop :=
  (∀ w, fieldF w = 0xF → fieldNN w = 0x55 → decode w = .storeRegs (fieldX w)) ∧
  ∀ (s : State) (x : Nibble), s.MemoryCanonical → s.i.toNat + x.toNat < 4096 →
    ∃ t, exec (.storeRegs x) s = .next t ∧
      (∀ r : Nibble, r.toNat ≤ x.toNat → t.readByte (s.i.toNat + r.toNat) = s.reg r) ∧
      (∀ a, a < s.i.toNat ∨ s.i.toNat + x.toNat < a → t.readByte a = s.readByte a) ∧
      t.i.toNat = (if s.cfg.storeLoadIncrementsI then s.i.toNat + x.toNat + 1 else s.i.toNat) ∧
      t = { s with mem := t.mem, i := t.i }

/-- R165, R166: V[0] to V[X] from I to I + X, where these exist; registers above X unchanged; I as for the store. -/
def Obligations.BlockLoadReadsRegisters : Prop :=
  (∀ w, fieldF w = 0xF → fieldNN w = 0x65 → decode w = .loadRegs (fieldX w)) ∧
  ∀ (s : State) (x : Nibble), s.i.toNat + x.toNat < 4096 →
    ∃ t, exec (.loadRegs x) s = .next t ∧
      (∀ r : Nibble, t.reg r = if r.toNat ≤ x.toNat then s.readByte (s.i.toNat + r.toNat) else s.reg r) ∧
      t.i.toNat = (if s.cfg.storeLoadIncrementsI then s.i.toNat + x.toNat + 1 else s.i.toNat) ∧
      t = { s with v := t.v, i := t.i } ∧ SameMemory s t

/-- R53, R163, R164, R211, R215: a store past 4095 halts with DATA_OUT_OF_RANGE at the first such address; each byte it
would have written is old or new, nothing else changes, I neither. -/
def Obligations.StoresPastEndHalt : Prop :=
  ∀ (s : State) (x : Nibble), s.MemoryCanonical →
    (4096 ≤ s.i.toNat + 2 → ∃ t, exec (.ldB x) s = .next t ∧
      Raised .dataOutOfRange (s.pc - 2) (BitVec.ofNat 16 (max s.i.toNat 4096)) s t ∧ t.v = s.v ∧ t.fb = s.fb ∧
      ∀ a, t.readByte a = s.readByte a ∨
        (a = s.i.toNat ∧ (t.readByte a).toNat = (s.reg x).toNat / 100) ∨
        (a = s.i.toNat + 1 ∧ (t.readByte a).toNat = (s.reg x).toNat / 10 % 10)) ∧
    (4096 ≤ s.i.toNat + x.toNat → ∃ t, exec (.storeRegs x) s = .next t ∧
      Raised .dataOutOfRange (s.pc - 2) (BitVec.ofNat 16 (max s.i.toNat 4096)) s t ∧ t.v = s.v ∧ t.fb = s.fb ∧
      ∀ a, t.readByte a = s.readByte a ∨
        ∃ r : Nibble, r.toNat < x.toNat ∧ a = s.i.toNat + r.toNat ∧ a < 4096 ∧ t.readByte a = s.reg r)

/-- R53, R165, R211, R215: a load past 4095 halts with DATA_OUT_OF_RANGE at the first such address; each register whose
byte exists is old or new. That every other register keeps its value, one up to X whose byte does not exist too, is the
model's reading (log 7), not the rule's. -/
def Obligations.LoadPastEndHalts : Prop :=
  ∀ (s : State) (x : Nibble), 4096 ≤ s.i.toNat + x.toNat → ∃ t, exec (.loadRegs x) s = .next t ∧
    Raised .dataOutOfRange (s.pc - 2) (BitVec.ofNat 16 (max s.i.toNat 4096)) s t ∧ t.mem = s.mem ∧ t.fb = s.fb ∧
    ∀ r : Nibble, t.reg r = s.reg r ∨
      (r.toNat < x.toNat ∧ s.i.toNat + r.toNat < 4096 ∧ t.reg r = s.readByte (s.i.toNat + r.toNat))

/-! ## Timers and key wait -/

/-- R180 to R182 (which of the three words moves which timer is supplied from general knowledge, log 15): V[X] <- DT;
DT <- V[X]; ST <- V[X]. -/
def Obligations.TimerAccessesMoveOneValue : Prop :=
  (∀ w, fieldF w = 0xF → fieldNN w = 0x07 → decode w = .ldVxDt (fieldX w)) ∧
  (∀ w, fieldF w = 0xF → fieldNN w = 0x15 → decode w = .ldDtVx (fieldX w)) ∧
  (∀ w, fieldF w = 0xF → fieldNN w = 0x18 → decode w = .ldStVx (fieldX w)) ∧
  ∀ (s : State) (x : Nibble),
    (∃ t, exec (.ldVxDt x) s = .next t ∧ OnlyRegs [x] s t ∧ t.reg x = s.dt) ∧
    (∃ t, exec (.ldDtVx x) s = .next t ∧ t = { s with dt := t.dt } ∧ t.dt = s.reg x ∧ SameMemory s t) ∧
    (∃ t, exec (.ldStVx x) s = .next t ∧ t = { s with st := t.st } ∧ t.st = s.reg x ∧ SameMemory s t)

/-- R183: FX0A leaves the engine in WAIT_KEY(X) with PC on the next instruction; nothing else changes. -/
def Obligations.KeyWaitSuspends : Prop :=
  (∀ w, fieldF w = 0xF → fieldNN w = 0x0A → decode w = .ldVxK (fieldX w)) ∧
  ∀ (s : State) (x : Nibble), ∃ t, exec (.ldVxK x) s = .next t ∧ t.status = .waitKey x ∧
    t = { s with status := t.status } ∧ SameMemory s t

/-! ## Display -/

/-- R190, R197, R199: CLS turns every pixel off and sends one notification of the blank screen. -/
def Obligations.ClearScreenBlanksAndNotifies : Prop :=
  decode 0x00E0 = .cls ∧
  ∀ s : State, ∃ t, exec .cls s = .next t ∧ (∀ c r, c < 64 → r < 32 → Frame.get t.fb c r = false) ∧ Notified s t ∧
    t = { s with fb := t.fb, slot := t.slot, status := t.status } ∧ SameMemory s t

/-- R191 to R195, R197 to R199: where all N bytes exist, every pixel is XORed with the sprite's, placed at V[X] mod 64,
V[Y] mod 32 of the old registers and clipped; VF = 1 iff a lit sprite pixel on the screen met a pixel that was on; one
notification of the new framebuffer is sent. N = 0 draws nothing, needs no byte, and leaves VF = 0. -/
def Obligations.DrawXorsSpriteAndNotifies : Prop :=
  (∀ w, fieldF w = 0xD → decode w = .drw (fieldX w) (fieldY w) (fieldN w)) ∧
  ∀ (s : State) (x y n : Nibble) (c0 r0 : Nat), c0 = (s.reg x).toNat % 64 → r0 = (s.reg y).toNat % 32 →
    n = 0 ∨ s.i.toNat + n.toNat ≤ 4096 →
    ∃ t, exec (.drw x y n) s = .next t ∧
      (∀ c r, c < 64 → r < 32 →
        Frame.get t.fb c r = (Frame.get s.fb c r ^^ s.spriteAt n.toNat c0 r0 c r)) ∧
      ((∃ c r, c < 64 ∧ r < 32 ∧ s.spriteAt n.toNat c0 r0 c r = true ∧ Frame.get s.fb c r = true) →
        t.reg vf = 1) ∧
      ((¬ ∃ c r, c < 64 ∧ r < 32 ∧ s.spriteAt n.toNat c0 r0 c r = true ∧ Frame.get s.fb c r = true) →
        t.reg vf = 0) ∧
      Notified s t ∧ OnlyDrawn s t

/-- R196, R211, R215: a draw that needs a byte past 4095 halts with DATA_OUT_OF_RANGE at the first such address, sends no
notification and leaves I; each pixel is old or XORed. What VF may hold, its old value, 0, or 1 only after a
collision of a row that exists, is the model's choice (log 8), not the rule's. -/
def Obligations.DrawPastEndHalts : Prop :=
  ∀ (s : State) (x y n : Nibble) (c0 r0 : Nat), c0 = (s.reg x).toNat % 64 → r0 = (s.reg y).toNat % 32 →
    n ≠ 0 → 4096 < s.i.toNat + n.toNat →
    ∃ t, exec (.drw x y n) s = .next t ∧
      Raised .dataOutOfRange (s.pc - 2) (BitVec.ofNat 16 (max s.i.toNat 4096)) s t ∧ t.mem = s.mem ∧
      SameRegsBut [vf] s t ∧
      (∀ c r, c < 64 → r < 32 → Frame.get t.fb c r = Frame.get s.fb c r ∨
        Frame.get t.fb c r = (Frame.get s.fb c r ^^ s.spriteAt n.toNat c0 r0 c r)) ∧
      (t.reg vf = s.reg vf ∨ t.reg vf = 0 ∨
        (t.reg vf = 1 ∧
          ∃ c r, c < 64 ∧ r < 32 ∧ s.spriteAt n.toNat c0 r0 c r = true ∧ Frame.get s.fb c r = true))

/-- R200: the source's two row compositions, on a row whose pixels 0..7 hold a byte, leftmost first. -/
def Obligations.RowCompositionExamples : Prop :=
  ∀ (f : Frame) (c r : Nat), c + 8 ≤ 64 → r < 32 →
    ((∀ k, k < 8 → Frame.get f (c + k) r = spritePixel 0b00000110 k) →
      (∀ k, k < 8 → Frame.get (composeRow 0b00000010 c r (f, false)).1 (c + k) r = spritePixel 0b00000100 k) ∧
      (composeRow 0b00000010 c r (f, false)).2 = true) ∧
    ((∀ k, k < 8 → Frame.get f (c + k) r = spritePixel 0b00000000 k) →
      (∀ k, k < 8 → Frame.get (composeRow 0b00000001 c r (f, false)).1 (c + k) r = spritePixel 0b00000001 k) ∧
      (composeRow 0b00000001 c r (f, false)).2 = false)

/-! ## Invariants that every step keeps -/

/-- Every step keeps memory in its canonical form, with every listed address below 4096 (R50). -/
def Obligations.StepKeepsMemoryCanonical : Prop :=
  ∀ s t : State, s.MemoryCanonical → step s = .next t → t.MemoryCanonical

/-- R24, R110, R112: every step keeps PC at most 0x10FE and every return address in 2..4096. -/
def Obligations.StepKeepsPcInRange : Prop :=
  ∀ s t : State, s.PcInRange → step s = .next t → t.PcInRange

/-- R26, R27: every step keeps a finite stack within STACK_DEPTH. -/
def Obligations.StepKeepsStackWithinDepth : Prop :=
  ∀ s t : State, s.StackWithinDepth → step s = .next t → t.StackWithinDepth

/-- R39, R98, R211, R214, R215: every step keeps the fault record sound: it is NONE, 0, 0 until the engine halts, never
UNKNOWN_FAMILY, and then PC, fault_pc and fault_info stand under each cause as State.FaultRecordSound says: the fetch's
PC; 0; the first address of 4096 or more; a 12-bit target. -/
def Obligations.StepKeepsFaultRecordSound : Prop :=
  ∀ s t : State, s.FaultRecordSound → step s = .next t → t.FaultRecordSound

/-- R199: every step keeps a waiting snapshot equal to the framebuffer. -/
def Obligations.StepKeepsPendingSnapshot : Prop :=
  ∀ s t : State, s.PendingIsFramebuffer → step s = .next t → t.PendingIsFramebuffer

/-- R240, R242: until `run` every step leaves the machine as initialised, fault_pc and fault_info too, memory apart. -/
def Obligations.StepKeepsLoadPhaseUntouched : Prop :=
  ∀ s t : State, s.LoadPhaseUntouched → step s = .next t → t.LoadPhaseUntouched

/-! ## Rules of the whole machine -/

/-- R101, R217, R232: only `init` leaves HALTED; until then no register, memory byte or pixel changes, the timers only
fall and the slot is only emptied. (No halt stands before `run`: StepKeepsLoadPhaseUntouched.) -/
def Obligations.OnlyInitLeavesHalted : Prop :=
  ∀ s t : State, s.status = .halted → s.loading = false → ¬ s.EventIsNext .init → step s = .next t →
    t = { s with dt := t.dt, st := t.st, slot := t.slot, env := t.env, draws := t.draws } ∧
    (t.slot = s.slot ∨ t.slot = none) ∧ t.dt.toNat ≤ s.dt.toNat ∧ t.st.toNat ≤ s.st.toNat

/-- R30: the framebuffer is changed only by 00E0 and DXYN (and by `init`). -/
def Obligations.FramebufferChangedOnlyByClearAndDraw : Prop :=
  (∀ (i : Instr) (s t : State), exec i s = .next t → ¬ changesFramebuffer i → t.fb = s.fb) ∧
  ∀ s t : State, step s = .next t → ¬ s.EventIsNext .init →
    ¬ (s.Ready ∧ changesFramebuffer (decode s.fetchWord)) → t.fb = s.fb

/-- R28: a timer rises only when FX15, for ST FX18, writes it. -/
def Obligations.TimersFallUnlessWritten : Prop :=
  ∀ s t : State, step s = .next t →
    (¬ (s.Ready ∧ ∃ x, decode s.fetchWord = .ldDtVx x) → t.dt.toNat ≤ s.dt.toNat) ∧
    (¬ (s.Ready ∧ ∃ x, decode s.fetchWord = .ldStVx x) → t.st.toNat ≤ s.st.toNat)

/-- R37: no step changes a parameter. -/
def Obligations.ParametersNeverChange : Prop := ∀ s t : State, step s = .next t → t.cfg = s.cfg

/-- R50, R59: memory is changed only by FX33 and FX55, by a load write before `run`, and by `init`. -/
def Obligations.MemoryChangedOnlyByStores : Prop :=
  (∀ (i : Instr) (s t : State), exec i s = .next t → ¬ storesToMemory i → SameMemory s t) ∧
  ∀ s t : State, step s = .next t → ¬ s.EventIsNext .init →
    (s.loading = true → ∀ addr data, ¬ s.EventIsNext (.loadByte addr data)) →
    ¬ (s.Ready ∧ storesToMemory (decode s.fetchWord)) → SameMemory s t

/-- R22, R25, R26: an instruction writes only the registers of its row, I only where R25 names it, and the stack only as
2NNN or 00EE. -/
def Obligations.InstructionsWriteOnlyTheirRegisters : Prop :=
  ∀ (i : Instr) (s t : State), exec i s = .next t →
    SameRegsBut (writtenRegs s.cfg i) s t ∧ (¬ writesIndex s.cfg i → t.i = s.i) ∧
    (i ≠ .ret → (∀ nnn, i ≠ .call nnn) → t.stack = s.stack)

/-- R99, R212: an instruction leaves the status alone but for FX0A (WAIT_KEY), 00E0 and DXYN on a full slot
(NOTIFY_PENDING), and the faults of 00EE, 2NNN, DXYN, FX33, FX55 and FX65 (HALTED). -/
def Obligations.StatusChangesOnlyWhereTheRulesSay : Prop :=
  ∀ (i : Instr) (s t : State), exec i s = .next t →
    t.status = s.status ∨ (∃ x, i = .ldVxK x ∧ t.status = .waitKey x) ∨
    (changesFramebuffer i ∧ s.slot ≠ none ∧ t.status = .notifyPending t.fb) ∨
    (t.status = .halted ∧ (i = .ret ∨ (∃ nnn, i = .call nnn) ∨ (∃ x y n, i = .drw x y n) ∨
      ∃ x, i = .ldB x ∨ i = .storeRegs x ∨ i = .loadRegs x))

/-- R61, R197: a snapshot in the slot stays there until the host takes it (or `init`), and one is placed only by 00E0,
DXYN or the end of NOTIFY_PENDING. -/
def Obligations.SlotKeepsItsSnapshotUntilTaken : Prop :=
  ∀ s t : State, step s = .next t →
    (∀ frame, s.slot = some frame → ¬ s.EventIsNext .takeFrame → ¬ s.EventIsNext .init → t.slot = some frame) ∧
    (s.slot = none → t.slot ≠ none →
      (∃ frame, s.status = .notifyPending frame ∧ t.slot = some frame) ∨
      (s.Ready ∧ changesFramebuffer (decode s.fetchWord) ∧ t.slot = some t.fb))

/-- R63, R245: a store over the next instruction is what the next fetch reads. -/
def Obligations.StoreIsSeenByTheNextFetch : Prop :=
  ∀ (s t : State) (x hi lo : Nibble), s.MemoryCanonical → exec (.storeRegs x) s = .next t →
    s.i.toNat + x.toNat < 4096 → s.pc.toNat = s.i.toNat + hi.toNat → lo.toNat = hi.toNat + 1 → lo.toNat ≤ x.toNat →
    t.fetchWord = s.reg hi ++ s.reg lo
end

