-- ==== Sys2Proof/Laws/State.lean ====
section
/-! SUPPORT. Every field after every update of the state, and what the shared operations on registers do. -/

namespace Sys2Proof.Machine

/-! ## State.setReg -/

@[simp] theorem State.setReg_v (s : State) (x : Nibble) (b : Byte) : (s.setReg x b).v = s.v.set x.toNat b x.isLt := rfl
@[simp] theorem State.setReg_i (s : State) (x : Nibble) (b : Byte) : (s.setReg x b).i = s.i := rfl
@[simp] theorem State.setReg_pc (s : State) (x : Nibble) (b : Byte) : (s.setReg x b).pc = s.pc := rfl
@[simp] theorem State.setReg_stack (s : State) (x : Nibble) (b : Byte) : (s.setReg x b).stack = s.stack := rfl
@[simp] theorem State.setReg_dt (s : State) (x : Nibble) (b : Byte) : (s.setReg x b).dt = s.dt := rfl
@[simp] theorem State.setReg_st (s : State) (x : Nibble) (b : Byte) : (s.setReg x b).st = s.st := rfl
@[simp] theorem State.setReg_mem (s : State) (x : Nibble) (b : Byte) : (s.setReg x b).mem = s.mem := rfl
@[simp] theorem State.setReg_fb (s : State) (x : Nibble) (b : Byte) : (s.setReg x b).fb = s.fb := rfl
@[simp] theorem State.setReg_status (s : State) (x : Nibble) (b : Byte) : (s.setReg x b).status = s.status := rfl
@[simp] theorem State.setReg_faultCause (s : State) (x : Nibble) (b : Byte) : (s.setReg x b).faultCause = s.faultCause := rfl
@[simp] theorem State.setReg_faultPc (s : State) (x : Nibble) (b : Byte) : (s.setReg x b).faultPc = s.faultPc := rfl
@[simp] theorem State.setReg_faultInfo (s : State) (x : Nibble) (b : Byte) : (s.setReg x b).faultInfo = s.faultInfo := rfl
@[simp] theorem State.setReg_slot (s : State) (x : Nibble) (b : Byte) : (s.setReg x b).slot = s.slot := rfl
@[simp] theorem State.setReg_cfg (s : State) (x : Nibble) (b : Byte) : (s.setReg x b).cfg = s.cfg := rfl
@[simp] theorem State.setReg_loading (s : State) (x : Nibble) (b : Byte) : (s.setReg x b).loading = s.loading := rfl
@[simp] theorem State.setReg_env (s : State) (x : Nibble) (b : Byte) : (s.setReg x b).env = s.env := rfl
@[simp] theorem State.setReg_draws (s : State) (x : Nibble) (b : Byte) : (s.setReg x b).draws = s.draws := rfl

/-! ## State.raise -/

@[simp] theorem State.raise_v (s : State) (c : Cause) (p q : Half) : (s.raise c p q).v = s.v := rfl
@[simp] theorem State.raise_i (s : State) (c : Cause) (p q : Half) : (s.raise c p q).i = s.i := rfl
@[simp] theorem State.raise_pc (s : State) (c : Cause) (p q : Half) : (s.raise c p q).pc = s.pc := rfl
@[simp] theorem State.raise_stack (s : State) (c : Cause) (p q : Half) : (s.raise c p q).stack = s.stack := rfl
@[simp] theorem State.raise_dt (s : State) (c : Cause) (p q : Half) : (s.raise c p q).dt = s.dt := rfl
@[simp] theorem State.raise_st (s : State) (c : Cause) (p q : Half) : (s.raise c p q).st = s.st := rfl
@[simp] theorem State.raise_mem (s : State) (c : Cause) (p q : Half) : (s.raise c p q).mem = s.mem := rfl
@[simp] theorem State.raise_fb (s : State) (c : Cause) (p q : Half) : (s.raise c p q).fb = s.fb := rfl
@[simp] theorem State.raise_status (s : State) (c : Cause) (p q : Half) : (s.raise c p q).status = .halted := rfl
@[simp] theorem State.raise_faultCause (s : State) (c : Cause) (p q : Half) : (s.raise c p q).faultCause = c := rfl
@[simp] theorem State.raise_faultPc (s : State) (c : Cause) (p q : Half) : (s.raise c p q).faultPc = p := rfl
@[simp] theorem State.raise_faultInfo (s : State) (c : Cause) (p q : Half) : (s.raise c p q).faultInfo = q := rfl
@[simp] theorem State.raise_slot (s : State) (c : Cause) (p q : Half) : (s.raise c p q).slot = s.slot := rfl
@[simp] theorem State.raise_cfg (s : State) (c : Cause) (p q : Half) : (s.raise c p q).cfg = s.cfg := rfl
@[simp] theorem State.raise_loading (s : State) (c : Cause) (p q : Half) : (s.raise c p q).loading = s.loading := rfl
@[simp] theorem State.raise_env (s : State) (c : Cause) (p q : Half) : (s.raise c p q).env = s.env := rfl
@[simp] theorem State.raise_draws (s : State) (c : Cause) (p q : Half) : (s.raise c p q).draws = s.draws := rfl

/-! ## State.raiseHere -/

@[simp] theorem State.raiseHere_v (s : State) (c : Cause) (q : Half) : (s.raiseHere c q).v = s.v := rfl
@[simp] theorem State.raiseHere_i (s : State) (c : Cause) (q : Half) : (s.raiseHere c q).i = s.i := rfl
@[simp] theorem State.raiseHere_pc (s : State) (c : Cause) (q : Half) : (s.raiseHere c q).pc = s.pc := rfl
@[simp] theorem State.raiseHere_stack (s : State) (c : Cause) (q : Half) : (s.raiseHere c q).stack = s.stack := rfl
@[simp] theorem State.raiseHere_dt (s : State) (c : Cause) (q : Half) : (s.raiseHere c q).dt = s.dt := rfl
@[simp] theorem State.raiseHere_st (s : State) (c : Cause) (q : Half) : (s.raiseHere c q).st = s.st := rfl
@[simp] theorem State.raiseHere_mem (s : State) (c : Cause) (q : Half) : (s.raiseHere c q).mem = s.mem := rfl
@[simp] theorem State.raiseHere_fb (s : State) (c : Cause) (q : Half) : (s.raiseHere c q).fb = s.fb := rfl
@[simp] theorem State.raiseHere_status (s : State) (c : Cause) (q : Half) : (s.raiseHere c q).status = .halted := rfl
@[simp] theorem State.raiseHere_faultCause (s : State) (c : Cause) (q : Half) : (s.raiseHere c q).faultCause = c := rfl
@[simp] theorem State.raiseHere_faultPc (s : State) (c : Cause) (q : Half) : (s.raiseHere c q).faultPc = s.pc - 2 := rfl
@[simp] theorem State.raiseHere_faultInfo (s : State) (c : Cause) (q : Half) : (s.raiseHere c q).faultInfo = q := rfl
@[simp] theorem State.raiseHere_slot (s : State) (c : Cause) (q : Half) : (s.raiseHere c q).slot = s.slot := rfl
@[simp] theorem State.raiseHere_cfg (s : State) (c : Cause) (q : Half) : (s.raiseHere c q).cfg = s.cfg := rfl
@[simp] theorem State.raiseHere_loading (s : State) (c : Cause) (q : Half) : (s.raiseHere c q).loading = s.loading := rfl
@[simp] theorem State.raiseHere_env (s : State) (c : Cause) (q : Half) : (s.raiseHere c q).env = s.env := rfl
@[simp] theorem State.raiseHere_draws (s : State) (c : Cause) (q : Half) : (s.raiseHere c q).draws = s.draws := rfl

/-! ## State.raiseData -/

@[simp] theorem State.raiseData_v (s : State) (n : Nat) : (s.raiseData n).v = s.v := rfl
@[simp] theorem State.raiseData_i (s : State) (n : Nat) : (s.raiseData n).i = s.i := rfl
@[simp] theorem State.raiseData_pc (s : State) (n : Nat) : (s.raiseData n).pc = s.pc := rfl
@[simp] theorem State.raiseData_stack (s : State) (n : Nat) : (s.raiseData n).stack = s.stack := rfl
@[simp] theorem State.raiseData_dt (s : State) (n : Nat) : (s.raiseData n).dt = s.dt := rfl
@[simp] theorem State.raiseData_st (s : State) (n : Nat) : (s.raiseData n).st = s.st := rfl
@[simp] theorem State.raiseData_mem (s : State) (n : Nat) : (s.raiseData n).mem = s.mem := rfl
@[simp] theorem State.raiseData_fb (s : State) (n : Nat) : (s.raiseData n).fb = s.fb := rfl
@[simp] theorem State.raiseData_status (s : State) (n : Nat) : (s.raiseData n).status = .halted := rfl
@[simp] theorem State.raiseData_faultCause (s : State) (n : Nat) : (s.raiseData n).faultCause = .dataOutOfRange := rfl
@[simp] theorem State.raiseData_faultPc (s : State) (n : Nat) : (s.raiseData n).faultPc = s.pc - 2 := rfl
@[simp] theorem State.raiseData_faultInfo (s : State) (n : Nat) : (s.raiseData n).faultInfo = BitVec.ofNat 16 n := rfl
@[simp] theorem State.raiseData_slot (s : State) (n : Nat) : (s.raiseData n).slot = s.slot := rfl
@[simp] theorem State.raiseData_cfg (s : State) (n : Nat) : (s.raiseData n).cfg = s.cfg := rfl
@[simp] theorem State.raiseData_loading (s : State) (n : Nat) : (s.raiseData n).loading = s.loading := rfl
@[simp] theorem State.raiseData_env (s : State) (n : Nat) : (s.raiseData n).env = s.env := rfl
@[simp] theorem State.raiseData_draws (s : State) (n : Nat) : (s.raiseData n).draws = s.draws + 1 := rfl

/-! ## State.drawn -/

@[simp] theorem State.drawn_v (s : State) : (s.drawn).v = s.v := rfl
@[simp] theorem State.drawn_i (s : State) : (s.drawn).i = s.i := rfl
@[simp] theorem State.drawn_pc (s : State) : (s.drawn).pc = s.pc := rfl
@[simp] theorem State.drawn_stack (s : State) : (s.drawn).stack = s.stack := rfl
@[simp] theorem State.drawn_dt (s : State) : (s.drawn).dt = s.dt := rfl
@[simp] theorem State.drawn_st (s : State) : (s.drawn).st = s.st := rfl
@[simp] theorem State.drawn_mem (s : State) : (s.drawn).mem = s.mem := rfl
@[simp] theorem State.drawn_fb (s : State) : (s.drawn).fb = s.fb := rfl
@[simp] theorem State.drawn_status (s : State) : (s.drawn).status = s.status := rfl
@[simp] theorem State.drawn_faultCause (s : State) : (s.drawn).faultCause = s.faultCause := rfl
@[simp] theorem State.drawn_faultPc (s : State) : (s.drawn).faultPc = s.faultPc := rfl
@[simp] theorem State.drawn_faultInfo (s : State) : (s.drawn).faultInfo = s.faultInfo := rfl
@[simp] theorem State.drawn_slot (s : State) : (s.drawn).slot = s.slot := rfl
@[simp] theorem State.drawn_cfg (s : State) : (s.drawn).cfg = s.cfg := rfl
@[simp] theorem State.drawn_loading (s : State) : (s.drawn).loading = s.loading := rfl
@[simp] theorem State.drawn_env (s : State) : (s.drawn).env = s.env := rfl
@[simp] theorem State.drawn_draws (s : State) : (s.drawn).draws = s.draws + 1 := rfl

/-! ## State.advance -/

@[simp] theorem State.advance_v (s : State) : (s.advance).v = s.v := rfl
@[simp] theorem State.advance_i (s : State) : (s.advance).i = s.i := rfl
@[simp] theorem State.advance_pc (s : State) : (s.advance).pc = s.pc + 2 := rfl
@[simp] theorem State.advance_stack (s : State) : (s.advance).stack = s.stack := rfl
@[simp] theorem State.advance_dt (s : State) : (s.advance).dt = s.dt := rfl
@[simp] theorem State.advance_st (s : State) : (s.advance).st = s.st := rfl
@[simp] theorem State.advance_mem (s : State) : (s.advance).mem = s.mem := rfl
@[simp] theorem State.advance_fb (s : State) : (s.advance).fb = s.fb := rfl
@[simp] theorem State.advance_status (s : State) : (s.advance).status = s.status := rfl
@[simp] theorem State.advance_faultCause (s : State) : (s.advance).faultCause = s.faultCause := rfl
@[simp] theorem State.advance_faultPc (s : State) : (s.advance).faultPc = s.faultPc := rfl
@[simp] theorem State.advance_faultInfo (s : State) : (s.advance).faultInfo = s.faultInfo := rfl
@[simp] theorem State.advance_slot (s : State) : (s.advance).slot = s.slot := rfl
@[simp] theorem State.advance_cfg (s : State) : (s.advance).cfg = s.cfg := rfl
@[simp] theorem State.advance_loading (s : State) : (s.advance).loading = s.loading := rfl
@[simp] theorem State.advance_env (s : State) : (s.advance).env = s.env := rfl
@[simp] theorem State.advance_draws (s : State) : (s.advance).draws = s.draws := rfl

/-! ## State.reinit -/

@[simp] theorem State.reinit_v (s : State) : (s.reinit).v = State.reset.v := rfl
@[simp] theorem State.reinit_i (s : State) : (s.reinit).i = State.reset.i := rfl
@[simp] theorem State.reinit_pc (s : State) : (s.reinit).pc = State.reset.pc := rfl
@[simp] theorem State.reinit_stack (s : State) : (s.reinit).stack = State.reset.stack := rfl
@[simp] theorem State.reinit_dt (s : State) : (s.reinit).dt = State.reset.dt := rfl
@[simp] theorem State.reinit_st (s : State) : (s.reinit).st = State.reset.st := rfl
@[simp] theorem State.reinit_mem (s : State) : (s.reinit).mem = State.reset.mem := rfl
@[simp] theorem State.reinit_fb (s : State) : (s.reinit).fb = State.reset.fb := rfl
@[simp] theorem State.reinit_status (s : State) : (s.reinit).status = State.reset.status := rfl
@[simp] theorem State.reinit_faultCause (s : State) : (s.reinit).faultCause = State.reset.faultCause := rfl
@[simp] theorem State.reinit_faultPc (s : State) : (s.reinit).faultPc = State.reset.faultPc := rfl
@[simp] theorem State.reinit_faultInfo (s : State) : (s.reinit).faultInfo = State.reset.faultInfo := rfl
@[simp] theorem State.reinit_slot (s : State) : (s.reinit).slot = State.reset.slot := rfl
@[simp] theorem State.reinit_cfg (s : State) : (s.reinit).cfg = s.cfg := rfl
@[simp] theorem State.reinit_loading (s : State) : (s.reinit).loading = State.reset.loading := rfl
@[simp] theorem State.reinit_env (s : State) : (s.reinit).env = s.env := rfl
@[simp] theorem State.reinit_draws (s : State) : (s.reinit).draws = s.draws := rfl

/-! ## State.environmentNext -/

@[simp] theorem State.environmentNext_v (s : State) : (s.environmentNext).v = s.v := rfl
@[simp] theorem State.environmentNext_i (s : State) : (s.environmentNext).i = s.i := rfl
@[simp] theorem State.environmentNext_pc (s : State) : (s.environmentNext).pc = s.pc := rfl
@[simp] theorem State.environmentNext_stack (s : State) : (s.environmentNext).stack = s.stack := rfl
@[simp] theorem State.environmentNext_dt (s : State) : (s.environmentNext).dt = s.dt := rfl
@[simp] theorem State.environmentNext_st (s : State) : (s.environmentNext).st = s.st := rfl
@[simp] theorem State.environmentNext_mem (s : State) : (s.environmentNext).mem = s.mem := rfl
@[simp] theorem State.environmentNext_fb (s : State) : (s.environmentNext).fb = s.fb := rfl
@[simp] theorem State.environmentNext_status (s : State) : (s.environmentNext).status = s.status := rfl
@[simp] theorem State.environmentNext_faultCause (s : State) : (s.environmentNext).faultCause = s.faultCause := rfl
@[simp] theorem State.environmentNext_faultPc (s : State) : (s.environmentNext).faultPc = s.faultPc := rfl
@[simp] theorem State.environmentNext_faultInfo (s : State) : (s.environmentNext).faultInfo = s.faultInfo := rfl
@[simp] theorem State.environmentNext_slot (s : State) : (s.environmentNext).slot = s.slot := rfl
@[simp] theorem State.environmentNext_cfg (s : State) : (s.environmentNext).cfg = s.cfg := rfl
@[simp] theorem State.environmentNext_loading (s : State) : (s.environmentNext).loading = s.loading := rfl
@[simp] theorem State.environmentNext_env (s : State) : (s.environmentNext).env = Config.environment s.draws := rfl
@[simp] theorem State.environmentNext_draws (s : State) : (s.environmentNext).draws = s.draws + 1 := rfl

/-! ## State.skipIf -/

@[simp] theorem State.skipIf_v (s : State) (b : Bool) : (s.skipIf b).v = s.v := rfl
@[simp] theorem State.skipIf_i (s : State) (b : Bool) : (s.skipIf b).i = s.i := rfl
@[simp] theorem State.skipIf_pc (s : State) (b : Bool) : (s.skipIf b).pc = if b then s.pc + 2 else s.pc := rfl
@[simp] theorem State.skipIf_stack (s : State) (b : Bool) : (s.skipIf b).stack = s.stack := rfl
@[simp] theorem State.skipIf_dt (s : State) (b : Bool) : (s.skipIf b).dt = s.dt := rfl
@[simp] theorem State.skipIf_st (s : State) (b : Bool) : (s.skipIf b).st = s.st := rfl
@[simp] theorem State.skipIf_mem (s : State) (b : Bool) : (s.skipIf b).mem = s.mem := rfl
@[simp] theorem State.skipIf_fb (s : State) (b : Bool) : (s.skipIf b).fb = s.fb := rfl
@[simp] theorem State.skipIf_status (s : State) (b : Bool) : (s.skipIf b).status = s.status := rfl
@[simp] theorem State.skipIf_faultCause (s : State) (b : Bool) : (s.skipIf b).faultCause = s.faultCause := rfl
@[simp] theorem State.skipIf_faultPc (s : State) (b : Bool) : (s.skipIf b).faultPc = s.faultPc := rfl
@[simp] theorem State.skipIf_faultInfo (s : State) (b : Bool) : (s.skipIf b).faultInfo = s.faultInfo := rfl
@[simp] theorem State.skipIf_slot (s : State) (b : Bool) : (s.skipIf b).slot = s.slot := rfl
@[simp] theorem State.skipIf_cfg (s : State) (b : Bool) : (s.skipIf b).cfg = s.cfg := rfl
@[simp] theorem State.skipIf_loading (s : State) (b : Bool) : (s.skipIf b).loading = s.loading := rfl
@[simp] theorem State.skipIf_env (s : State) (b : Bool) : (s.skipIf b).env = s.env := rfl
@[simp] theorem State.skipIf_draws (s : State) (b : Bool) : (s.skipIf b).draws = s.draws := rfl

/-! ## State.writeByte -/

@[simp] theorem State.writeByte_v (s : State) (a : Nat) (b : Byte) : (s.writeByte a b).v = s.v := rfl
@[simp] theorem State.writeByte_i (s : State) (a : Nat) (b : Byte) : (s.writeByte a b).i = s.i := rfl
@[simp] theorem State.writeByte_pc (s : State) (a : Nat) (b : Byte) : (s.writeByte a b).pc = s.pc := rfl
@[simp] theorem State.writeByte_stack (s : State) (a : Nat) (b : Byte) : (s.writeByte a b).stack = s.stack := rfl
@[simp] theorem State.writeByte_dt (s : State) (a : Nat) (b : Byte) : (s.writeByte a b).dt = s.dt := rfl
@[simp] theorem State.writeByte_st (s : State) (a : Nat) (b : Byte) : (s.writeByte a b).st = s.st := rfl
@[simp] theorem State.writeByte_fb (s : State) (a : Nat) (b : Byte) : (s.writeByte a b).fb = s.fb := rfl
@[simp] theorem State.writeByte_status (s : State) (a : Nat) (b : Byte) : (s.writeByte a b).status = s.status := rfl
@[simp] theorem State.writeByte_faultCause (s : State) (a : Nat) (b : Byte) : (s.writeByte a b).faultCause = s.faultCause := rfl
@[simp] theorem State.writeByte_faultPc (s : State) (a : Nat) (b : Byte) : (s.writeByte a b).faultPc = s.faultPc := rfl
@[simp] theorem State.writeByte_faultInfo (s : State) (a : Nat) (b : Byte) : (s.writeByte a b).faultInfo = s.faultInfo := rfl
@[simp] theorem State.writeByte_slot (s : State) (a : Nat) (b : Byte) : (s.writeByte a b).slot = s.slot := rfl
@[simp] theorem State.writeByte_cfg (s : State) (a : Nat) (b : Byte) : (s.writeByte a b).cfg = s.cfg := rfl
@[simp] theorem State.writeByte_loading (s : State) (a : Nat) (b : Byte) : (s.writeByte a b).loading = s.loading := rfl
@[simp] theorem State.writeByte_env (s : State) (a : Nat) (b : Byte) : (s.writeByte a b).env = s.env := rfl
@[simp] theorem State.writeByte_draws (s : State) (a : Nat) (b : Byte) : (s.writeByte a b).draws = s.draws := rfl

/-! ## Registers -/

/-- A register reads back what was written to it, and a write leaves every other register alone (R20). -/
theorem State.reg_setReg (s : State) (x r : Nibble) (b : Byte) :
    (s.setReg x b).reg r = if x = r then b else s.reg r := by
  simp only [State.reg, State.setReg, Vector.getElem_set, BitVec.toNat_inj]

@[simp] theorem State.reg_setReg_self (s : State) (x : Nibble) (b : Byte) : (s.setReg x b).reg x = b := by
  simp [State.reg_setReg]

theorem State.reg_setReg_of_ne (s : State) {x r : Nibble} (b : Byte) (h : x ≠ r) : (s.setReg x b).reg r = s.reg r := by
  simp [State.reg_setReg, h]

/-- Writing what a register holds changes nothing. -/
@[simp] theorem State.setReg_reg (s : State) (x : Nibble) : s.setReg x (s.reg x) = s := by
  simp [State.setReg, State.reg]

/-- Two states with the same registers read the same (the other fields do not matter). -/
theorem State.reg_congr {s t : State} (h : t.v = s.v) (r : Nibble) : t.reg r = s.reg r := by
  simp only [State.reg, h]

/-- Two states with the same memory and font read the same bytes. -/
theorem State.readByte_congr {s t : State} (h : t.mem = s.mem) (hc : t.cfg = s.cfg) (a : Nat) :
    t.readByte a = s.readByte a := by
  simp only [State.readByte, h, hc]

@[simp] theorem State.readByte_setReg (s : State) (x : Nibble) (b : Byte) (a : Nat) :
    (s.setReg x b).readByte a = s.readByte a := rfl

/-! ## Register and memory reads after an update that writes neither -/

@[simp] theorem State.reg_raise (s : State) (c : Cause) (p q : Half) (r : Nibble) : (s.raise c p q).reg r = s.reg r := rfl
@[simp] theorem State.readByte_raise (s : State) (c : Cause) (p q : Half) (a : Nat) : (s.raise c p q).readByte a = s.readByte a := rfl
@[simp] theorem State.reg_raiseHere (s : State) (c : Cause) (q : Half) (r : Nibble) : (s.raiseHere c q).reg r = s.reg r := rfl
@[simp] theorem State.readByte_raiseHere (s : State) (c : Cause) (q : Half) (a : Nat) : (s.raiseHere c q).readByte a = s.readByte a := rfl
@[simp] theorem State.reg_raiseData (s : State) (n : Nat) (r : Nibble) : (s.raiseData n).reg r = s.reg r := rfl
@[simp] theorem State.readByte_raiseData (s : State) (n : Nat) (a : Nat) : (s.raiseData n).readByte a = s.readByte a := rfl
@[simp] theorem State.reg_drawn (s : State) (r : Nibble) : (s.drawn).reg r = s.reg r := rfl
@[simp] theorem State.readByte_drawn (s : State) (a : Nat) : (s.drawn).readByte a = s.readByte a := rfl
@[simp] theorem State.reg_advance (s : State) (r : Nibble) : (s.advance).reg r = s.reg r := rfl
@[simp] theorem State.readByte_advance (s : State) (a : Nat) : (s.advance).readByte a = s.readByte a := rfl
@[simp] theorem State.reg_environmentNext (s : State) (r : Nibble) : (s.environmentNext).reg r = s.reg r := rfl
@[simp] theorem State.readByte_environmentNext (s : State) (a : Nat) : (s.environmentNext).readByte a = s.readByte a := rfl
@[simp] theorem State.reg_skipIf (s : State) (b : Bool) (r : Nibble) : (s.skipIf b).reg r = s.reg r := rfl
@[simp] theorem State.readByte_skipIf (s : State) (b : Bool) (a : Nat) : (s.skipIf b).readByte a = s.readByte a := rfl
@[simp] theorem State.reg_writeByte (s : State) (a : Nat) (b : Byte) (r : Nibble) : (s.writeByte a b).reg r = s.reg r :=
  State.reg_congr (State.writeByte_v s a b) r

/-- A write that is seen, or none. -/
theorem State.writeByteIf_eq (s : State) (l : Bool) (a : Nat) (b : Byte) :
    s.writeByteIf l a b = if l then s.writeByte a b else s := by cases l <;> rfl

/-- A register write changes only that register. -/
theorem onlyRegs_setReg (s : State) (x : Nibble) (b : Byte) : OnlyRegs [x] s (s.setReg x b) := by
  refine ⟨rfl, fun r hr => ?_, fun a => rfl⟩
  exact State.reg_setReg_of_ne s b fun h => hr (by simp [h])

end Sys2Proof.Machine
end

