-- ==== Sys2Proof/Laws/Memory.lean ====
section
/-! SUPPORT. Memory: read after write, the canonical form is kept, and what the byte sequences of FX33, FX55, FX65 and
DXYN do (spec/20_memory.md R53, R55, R65). -/

namespace Sys2Proof.Machine

variable {font : Vector Byte fontBytes}

theorem Memory.read_cons_entry (a b : Nat) (x : Byte) (rest : Memory)
    (h : ∀ c ∈ rest, b < c.1) :
    Memory.read font a (Memory.cons font b x rest) = if a = b then x else Memory.read font a rest := by
  have absent : Memory.read font b rest = Memory.initial font b := by
    clear x
    induction rest with
    | nil => rfl
    | cons c rest ih =>
      have hc := h c (by simp)
      simp only [Memory.read, if_neg (by omega : ¬ c.1 = b)]
      exact ih fun d hd => h d (by simp [hd])
  unfold Memory.cons
  split
  · next heq =>
    by_cases hab : a = b
    · subst hab; simp [absent, heq]
    · simp [hab]
  · by_cases hab : a = b
    · simp [Memory.read, hab]
    · simp [Memory.read, hab, Ne.symm hab]

/-- A read after a write (R55): the byte written, or what was there. -/
theorem Memory.read_write {m : Memory} (h : m.Pairwise fun c d => c.1 < d.1) (a b : Nat) (x : Byte) :
    Memory.read font a (Memory.write font b x m) = if a = b then x else Memory.read font a m := by
  induction m with
  | nil => exact Memory.read_cons_entry a b x [] (by simp)
  | cons c rest ih =>
    obtain ⟨hlt, hrest⟩ := List.pairwise_cons.mp h
    unfold Memory.write
    split
    · next hbc =>
      refine Memory.read_cons_entry a b x (c :: rest) fun d hd => ?_
      rcases List.mem_cons.mp hd with rfl | hd
      · exact hbc
      · exact hbc.trans (hlt d hd)
    · split
      · next hbc =>
        rw [Memory.read_cons_entry a b x rest fun d hd => hbc ▸ hlt d hd]
        by_cases hab : a = b
        · simp [hab]
        · simp [Memory.read, hab, show ¬ c.1 = a from fun h' => hab (by omega)]
      · next hbc1 hbc2 =>
        simp only [Memory.read, ih hrest]
        by_cases hca : c.1 = a
        · simp [hca, show ¬ a = b by omega]
        · simp [hca]

theorem Memory.mem_cons_entry {d : Host.Cell} {a : Nat} {b : Byte} {rest : Memory}
    (h : d ∈ Memory.cons font a b rest) : (d = (a, b) ∧ b ≠ Memory.initial font a) ∨ d ∈ rest := by
  unfold Memory.cons at h
  split at h
  · exact .inr h
  · next hne =>
    rcases List.mem_cons.mp h with rfl | h
    · exact .inl ⟨rfl, hne⟩
    · exact .inr h

theorem Memory.pairwise_cons_entry {a : Nat} {b : Byte} {rest : Memory}
    (hr : rest.Pairwise fun c d => c.1 < d.1) (h : ∀ c ∈ rest, a < c.1) :
    (Memory.cons font a b rest).Pairwise fun c d => c.1 < d.1 := by
  unfold Memory.cons
  split
  · exact hr
  · exact List.pairwise_cons.mpr ⟨h, hr⟩

theorem Memory.mem_write {d : Host.Cell} {a : Nat} {b : Byte} {m : Memory} (h : d ∈ Memory.write font a b m) :
    (d = (a, b) ∧ b ≠ Memory.initial font a) ∨ d ∈ m := by
  induction m with
  | nil => exact Memory.mem_cons_entry h
  | cons c rest ih =>
    unfold Memory.write at h
    split at h
    · exact Memory.mem_cons_entry h
    · split at h
      · exact (Memory.mem_cons_entry h).imp_right (List.mem_cons_of_mem c)
      · rcases List.mem_cons.mp h with rfl | h
        · simp
        · exact (ih h).imp_right (List.mem_cons_of_mem c)

/-- A write below 4096 keeps the canonical form. -/
theorem Memory.wf_write {m : Memory} (h : Memory.wf font m) {a : Nat} (ha : a < memSize) (b : Byte) :
    Memory.wf font (Memory.write font a b m) := by
  obtain ⟨hp, hall⟩ := h
  refine ⟨?_, fun d hd => ?_⟩
  · clear hall ha
    induction m with
    | nil => exact Memory.pairwise_cons_entry hp (by simp)
    | cons c rest ih =>
      obtain ⟨hlt, hrest⟩ := List.pairwise_cons.mp hp
      unfold Memory.write
      split
      · next hac =>
        refine Memory.pairwise_cons_entry hp fun d hd => ?_
        rcases List.mem_cons.mp hd with rfl | hd
        · exact hac
        · exact hac.trans (hlt d hd)
      · split
        · next hac => exact Memory.pairwise_cons_entry hrest fun d hd => hac ▸ hlt d hd
        · refine List.pairwise_cons.mpr ⟨fun d hd => ?_, ih hrest⟩
          rcases Memory.mem_write hd with ⟨rfl, -⟩ | hd
          · simp only; omega
          · exact hlt d hd
  · rcases Memory.mem_write hd with ⟨rfl, hne⟩ | hd
    · exact ⟨ha, hne⟩
    · exact hall d hd

/-! ## State.writeByte -/

theorem State.readByte_writeByte {s : State} (h : s.MemoryCanonical) (a b : Nat) (x : Byte) :
    (s.writeByte b x).readByte a = if a = b ∧ b < memSize then x else s.readByte a := by
  by_cases hb : b < memSize
  · simp only [State.readByte, State.writeByte, hb, if_true, Memory.read_write h.1, and_true]
  · simp [State.readByte, State.writeByte, hb]

theorem State.memoryCanonical_writeByte {s : State} (h : s.MemoryCanonical) (b : Nat) (x : Byte) :
    (s.writeByte b x).MemoryCanonical := by
  unfold State.writeByte State.MemoryCanonical
  by_cases hb : b < memSize
  · simp only [if_pos hb]; exact Memory.wf_write h hb x
  · simp only [if_neg hb]; exact h

/-- A memory write changes nothing but memory. -/
theorem State.writeByte_eq (s : State) (a : Nat) (x : Byte) :
    s.writeByte a x = { s with mem := (s.writeByte a x).mem } := rfl

/-! ## State.writeBytes -/

theorem State.writeBytes_eq (lands : Nat → Bool) (base : Nat) (bs : List Byte) (k : Nat) (s : State) :
    s.writeBytes lands base k bs = { s with mem := (s.writeBytes lands base k bs).mem } := by
  induction bs generalizing k s with
  | nil => rfl
  | cons b bs ih =>
    unfold State.writeBytes
    rw [ih]
    rfl

theorem State.memoryCanonical_writeBytes (lands : Nat → Bool) (base : Nat) (bs : List Byte) (k : Nat) {s : State}
    (h : s.MemoryCanonical) : (s.writeBytes lands base k bs).MemoryCanonical := by
  induction bs generalizing k s with
  | nil => exact h
  | cons b bs ih =>
    unfold State.writeBytes
    rw [State.writeByteIf_eq]
    refine ih (k + 1) ?_
    split
    · exact State.memoryCanonical_writeByte h _ _
    · exact h

/-- Every byte after a sequence of stores from base on: the stored one where its store lands on an address that exists,
else what was there. -/
theorem State.readByte_writeBytes (lands : Nat → Bool) (base : Nat) (bs : List Byte) (k : Nat) {s : State}
    (h : s.MemoryCanonical) (a : Nat) :
    (s.writeBytes lands base k bs).readByte a =
      if hk : base + k ≤ a ∧ a < base + k + bs.length ∧ a < memSize ∧ lands (a - base) then
        bs[a - base - k]'(by omega)
      else s.readByte a := by
  induction bs generalizing k s with
  | nil => simp [State.writeBytes]; intros; omega
  | cons b bs ih =>
    unfold State.writeBytes
    rw [State.writeByteIf_eq]
    have hc : (if lands k then s.writeByte (base + k) b else s).MemoryCanonical := by
      split
      · exact State.memoryCanonical_writeByte h _ _
      · exact h
    rw [ih (k + 1) hc]
    by_cases hak : a = base + k
    · subst hak
      simp only [Nat.add_sub_cancel_left, List.length_cons]
      rw [dif_neg (by omega)]
      by_cases hl : lands k
      · simp only [hl, if_true, State.readByte_writeByte h]
        by_cases hm : base + k < memSize
        · simp [hm]
        · simp [hm]
      · simp [hl]
    · have hs : (if lands k then s.writeByte (base + k) b else s).readByte a = s.readByte a := by
        split
        · rw [State.readByte_writeByte h, if_neg (by omega)]
        · rfl
      rw [hs]
      by_cases hin : base + k + 1 ≤ a ∧ a < base + k + 1 + bs.length ∧ a < memSize ∧ lands (a - base)
      · rw [dif_pos (by constructor <;> [omega; exact ⟨by omega, hin.2.2⟩]),
          dif_pos ⟨by omega, by simp only [List.length_cons]; omega, hin.2.2⟩]
        have e : a - base - k = a - base - (k + 1) + 1 := by omega
        simp only [e, List.getElem_cons_succ]
      · rw [dif_neg (by intro hh; exact hin ⟨by omega, by omega, hh.2.2⟩),
          dif_neg (by simp only [List.length_cons]; intro hh; exact hin ⟨by omega, by omega, hh.2.2⟩)]

/-! ## The range check -/

/-- The first address out of range: none exactly where every address exists; else the larger of base and 4096. -/
theorem firstOutOfRange_eq (base n : Nat) :
    firstOutOfRange base n = if n = 0 ∨ base + n ≤ memSize then none else some (max base memSize) := by
  unfold firstOutOfRange
  split
  · next h =>
    rw [List.find?_eq_none]
    intro a ha
    simp only [List.mem_map, List.mem_range] at ha
    obtain ⟨k, hk, rfl⟩ := ha
    simp only [decide_eq_true_eq]; omega
  · next h =>
    rw [List.find?_map, Option.map_eq_some_iff]
    refine ⟨max base memSize - base, ?_, by omega⟩
    rw [List.find?_range_eq_some]
    refine ⟨by simp, by simp; omega, fun j hj => ?_⟩
    simp only [Function.comp, Bool.not_eq_true', decide_eq_false_iff_not]
    omega

theorem firstOutOfRange_eq_none {base n : Nat} (h : n = 0 ∨ base + n ≤ memSize) : firstOutOfRange base n = none := by
  rw [firstOutOfRange_eq, if_pos h]

theorem firstOutOfRange_eq_some {base n : Nat} (h0 : 0 < n) (h : memSize < base + n) :
    firstOutOfRange base n = some (max base memSize) := by
  rw [firstOutOfRange_eq, if_neg (by omega)]

/-- The fault_info of a range check on I: the larger of I and 4096 fits in 16 bits. -/
theorem firstOutOfRange_toNat {i : Half} {n bad : Nat} (h : firstOutOfRange i.toNat n = some bad) :
    (BitVec.ofNat 16 bad).toNat = max i.toNat memSize := by
  rw [firstOutOfRange_eq] at h
  split at h
  · cases h
  · injection h with h
    have := i.isLt
    simp only [memSize, BitVec.toNat_ofNat] at *
    omega

/-! ## State.readBytes -/

/-- The bytes of a sequence are those at the addresses that exist, a first part of it. -/
theorem State.readBytes_eq (s : State) (base n : Nat) :
    s.readBytes base n = (List.range (min n (memSize - base))).map fun k => s.readByte (base + k) := by
  have h : ((List.range n).map (base + ·)).filter (· < memSize) =
      (List.range (min n (memSize - base))).map (base + ·) := by
    induction n with
    | zero => simp
    | succ n ih =>
      rw [List.range_succ, List.map_append, List.filter_append, ih]
      by_cases hn : base + n < memSize
      · rw [show min (n + 1) (memSize - base) = n + 1 by omega, show min n (memSize - base) = n by omega,
          List.range_succ, List.map_append]
        simp [hn]
      · rw [show min (n + 1) (memSize - base) = min n (memSize - base) by omega]
        simp only [List.map_cons, List.map_nil, List.filter_cons, hn, decide_false, Bool.false_eq_true, if_false,
          List.filter_nil, List.append_nil]
  rw [State.readBytes, h, List.map_map]
  rfl

/-! ## State.loadBytes -/

theorem State.loadBytes_succ (lands : Nat → Bool) (base n : Nat) (s : State) :
    s.loadBytes lands base (n + 1) =
      if base + n < memSize ∧ lands n then
        (s.loadBytes lands base n).setReg (BitVec.ofNat 4 n) ((s.loadBytes lands base n).readByte (base + n))
      else s.loadBytes lands base n := by
  simp only [State.loadBytes, List.range_succ, List.foldl_append, List.foldl_cons, List.foldl_nil]
  split
  · rfl
  · rw [State.setReg_reg]

theorem State.loadBytes_eq (lands : Nat → Bool) (base n : Nat) (s : State) :
    s.loadBytes lands base n = { s with v := (s.loadBytes lands base n).v } := by
  induction n with
  | zero => rfl
  | succ n ih =>
    rw [State.loadBytes_succ]
    split
    · rw [ih]; rfl
    · exact ih

theorem State.readByte_loadBytes (lands : Nat → Bool) (base n : Nat) (s : State) (a : Nat) :
    (s.loadBytes lands base n).readByte a = s.readByte a := by
  rw [State.loadBytes_eq]; rfl

/-- Every register after loading V[0] to V[n-1]: the byte from memory where its address exists and its write lands. -/
theorem State.reg_loadBytes (lands : Nat → Bool) (base : Nat) {n : Nat} (hn : n ≤ 16) (s : State) (r : Nibble) :
    (s.loadBytes lands base n).reg r =
      if r.toNat < n ∧ base + r.toNat < memSize ∧ lands r.toNat then s.readByte (base + r.toNat) else s.reg r := by
  induction n with
  | zero => simp [State.loadBytes]
  | succ n ih =>
    have ih := ih (by omega)
    have hn4 : (BitVec.ofNat 4 n).toNat = n := by
      simp only [BitVec.toNat_ofNat]; omega
    rw [State.loadBytes_succ]
    by_cases hr : r.toNat = n
    · have hrn : BitVec.ofNat 4 n = r := by rw [← BitVec.toNat_inj, hn4, hr]
      split
      · next hl => rw [hrn, State.reg_setReg_self, State.readByte_loadBytes, if_pos ⟨by omega, by rw [hr]; exact hl⟩, hr]
      · next hl =>
        rw [ih, if_neg (by omega), if_neg (by rw [hr]; intro hh; exact hl hh.2)]
    · have hrn : BitVec.ofNat 4 n ≠ r := fun h => hr (by rw [← h, hn4])
      have e : (r.toNat < n + 1) = (r.toNat < n) := by simp only [eq_iff_iff]; omega
      split
      · rw [State.reg_setReg_of_ne _ _ hrn, ih]; simp only [e]
      · rw [ih]; simp only [e]

/-! ## Stores from I on -/

/-- Where every address exists the bytes are stored and `done` follows. -/
theorem State.storeFromIndex_of_inRange (s : State) (bytes : List Byte) (done : State → State)
    (h : s.i.toNat + bytes.length ≤ memSize) :
    s.storeFromIndex bytes done = done (s.writeBytes (fun _ => true) s.i.toNat 0 bytes) := by
  simp only [State.storeFromIndex, firstOutOfRange_eq_none (.inr h)]

/-- Where one does not, the engine halts with the first such address; `done` does not follow. -/
theorem State.storeFromIndex_of_pastEnd (s : State) (bytes : List Byte) (done : State → State)
    (h0 : 0 < bytes.length) (h : memSize < s.i.toNat + bytes.length) :
    s.storeFromIndex bytes done =
      (s.writeBytes (Config.holdsNew s.draws) s.i.toNat 0 bytes).raiseData (max s.i.toNat memSize) := by
  simp only [State.storeFromIndex, firstOutOfRange_eq_some h0 h]

/-- Everything a store from I on can do: all bytes stored and `done`, or some of them and a halt. -/
theorem State.storeFromIndex_cases (s : State) (bytes : List Byte) (done : State → State) :
    s.storeFromIndex bytes done = done (s.writeBytes (fun _ => true) s.i.toNat 0 bytes) ∨
    ∃ bad, s.storeFromIndex bytes done =
      (s.writeBytes (Config.holdsNew s.draws) s.i.toNat 0 bytes).raiseData bad := by
  unfold State.storeFromIndex
  split
  · exact .inl rfl
  · next bad _ => exact .inr ⟨bad, rfl⟩

end Sys2Proof.Machine
end

