-- ==== Sys2Proof/Laws/Display.lean ====
section
/-! SUPPORT. What the blitter does to a pixel and to the collision flag (spec/45_display.md R192 to R195). -/

namespace Sys2Proof.Machine

theorem Frame.get_xorPixel (f : Frame) (c r : Nat) (p : Bool) {c' r' : Nat} (hc : c' < 64) (hr : r' < 32) :
    Frame.get (f.xorPixel c r p) c' r' = (Frame.get f c' r' ^^ (decide (c' = c ∧ r' = r) && p)) := by
  unfold Frame.xorPixel
  split
  · next h =>
    simp only [Frame.get, hc, hr, and_self, dif_pos, Vector.getElem_set]
    by_cases hcc : c = c'
    · subst hcc
      by_cases hrr : r = r'
      · subst hrr; simp
      · simp [hrr, Ne.symm hrr]
    · simp [hcc, Ne.symm hcc]
  · next h =>
    have : ¬ (c' = c ∧ r' = r) := fun ⟨e1, e2⟩ => h ⟨e1 ▸ hc, e2 ▸ hr⟩
    simp [this]

theorem Frame.get_outside (f : Frame) {c r : Nat} (h : ¬ (c < 64 ∧ r < 32)) : Frame.get f c r = false := by
  unfold Frame.get; rw [dif_neg h]

theorem Frame.get_blank (c r : Nat) : Frame.get Frame.blank c r = false := by
  unfold Frame.get Frame.blank; split <;> simp

/-- Two frames with the same pixels are the same frame. -/
theorem Frame.ext_get {f g : Frame} (h : ∀ c r, c < 64 → r < 32 → Frame.get f c r = Frame.get g c r) : f = g := by
  refine Vector.ext fun c hc => Vector.ext fun r hr => ?_
  have := h c r hc hr
  simpa only [Frame.get, show c < frameWidth ∧ r < frameHeight from ⟨hc, hr⟩, and_self, dif_pos] using this

theorem Frame.get_blend (lands : Nat → Bool) (old new : Frame) {c r : Nat} (hc : c < 64) (hr : r < 32) :
    Frame.get (Frame.blend lands old new) c r =
      if lands (c * 32 + r) then Frame.get new c r else Frame.get old c r := by
  simp only [Frame.get, Frame.blend, hc, hr, and_self, dif_pos, Vector.getElem_ofFn]

/-- The pixel of a row of sprite byte b at (c, r): bit 7 is the leftmost, dark outside the row. -/
def rowAt (b : Byte) (c0 r0 c r : Nat) : Bool := decide (c0 ≤ c ∧ c < c0 + 8 ∧ r = r0) && b.getLsbD (7 - (c - c0))

theorem Frame.get_composeRow_upto (b : Byte) (c0 r0 n : Nat) (acc : Frame × Bool) {c r : Nat} (hc : c < 64) (hr : r < 32) :
    Frame.get ((List.range n).foldl (composePixel b c0 r0) acc).1 c r =
      (Frame.get acc.1 c r ^^ (decide (c0 ≤ c ∧ c < c0 + n ∧ r = r0) && b.getLsbD (7 - (c - c0)))) := by
  induction n with
  | zero =>
    have : ¬ (c0 ≤ c ∧ c < c0 + 0 ∧ r = r0) := by omega
    rw [decide_eq_false this]; simp
  | succ n ih =>
    simp only [List.range_succ, List.foldl_append, List.foldl_cons, List.foldl_nil, composePixel]
    rw [Frame.get_xorPixel _ _ _ _ hc hr, ih, spritePixel]
    by_cases h : c = c0 + n ∧ r = r0
    · obtain ⟨rfl, rfl⟩ := h
      simp
    · have e : decide (c0 ≤ c ∧ c < c0 + (n + 1) ∧ r = r0) = decide (c0 ≤ c ∧ c < c0 + n ∧ r = r0) := by
        rw [decide_eq_decide]; omega
      simp [h, e]

/-- A composed row: each pixel XORed with the sprite's (R194), none outside the grid (R195). -/
theorem Frame.get_composeRow (b : Byte) (c0 r0 : Nat) (acc : Frame × Bool) {c r : Nat} (hc : c < 64) (hr : r < 32) :
    Frame.get (composeRow b c0 r0 acc).1 c r = (Frame.get acc.1 c r ^^ rowAt b c0 r0 c r) :=
  Frame.get_composeRow_upto b c0 r0 8 acc hc hr

theorem composeRow_flag_upto (b : Byte) (c0 r0 n : Nat) (acc : Frame × Bool) :
    ((List.range n).foldl (composePixel b c0 r0) acc).2 = true ↔
      acc.2 = true ∨ ∃ k < n, b.getLsbD (7 - k) = true ∧ Frame.get acc.1 (c0 + k) r0 = true := by
  induction n with
  | zero => simp
  | succ n ih =>
    simp only [List.range_succ, List.foldl_append, List.foldl_cons, List.foldl_nil, composePixel,
      Bool.or_eq_true, Bool.and_eq_true, ih, spritePixel]
    have same : Frame.get ((List.range n).foldl (composePixel b c0 r0) acc).1 (c0 + n) r0 =
        Frame.get acc.1 (c0 + n) r0 := by
      by_cases hin : c0 + n < 64 ∧ r0 < 32
      · rw [Frame.get_composeRow_upto b c0 r0 n acc hin.1 hin.2]; simp
      · rw [Frame.get_outside _ hin, Frame.get_outside _ hin]
    rw [same]
    constructor
    · rintro ((h | ⟨k, hk, h⟩) | h)
      · exact .inl h
      · exact .inr ⟨k, by omega, h⟩
      · exact .inr ⟨n, by omega, h⟩
    · rintro (h | ⟨k, hk, h⟩)
      · exact .inl (.inl h)
      · rcases Nat.lt_succ_iff_lt_or_eq.mp hk with hk | rfl
        · exact .inl (.inr ⟨k, hk, h⟩)
        · exact .inr h

/-- The flag after one row: set before, or a lit sprite pixel of the row met a pixel that was on (R192). -/
theorem composeRow_flag (b : Byte) (c0 r0 : Nat) (acc : Frame × Bool) :
    (composeRow b c0 r0 acc).2 = true ↔
      acc.2 = true ∨ ∃ c r, rowAt b c0 r0 c r = true ∧ Frame.get acc.1 c r = true := by
  rw [composeRow, composeRow_flag_upto]
  refine or_congr Iff.rfl ⟨?_, ?_⟩
  · rintro ⟨k, hk, hb, hg⟩
    exact ⟨c0 + k, r0, by simp [rowAt, hk, hb], hg⟩
  · rintro ⟨c, r, hrow, hg⟩
    simp only [rowAt, Bool.and_eq_true, decide_eq_true_eq] at hrow
    obtain ⟨⟨h1, h2, rfl⟩, hb⟩ := hrow
    exact ⟨c - c0, by omega, hb, by rwa [show c0 + (c - c0) = c by omega]⟩

/-- The sprite's pixel at (c, r): row r - r0 of the bytes, dark outside. -/
def spriteRowsAt (bs : List Byte) (c0 r0 c r : Nat) : Bool :=
  if h : r0 ≤ r ∧ r < r0 + bs.length then
    decide (c0 ≤ c ∧ c < c0 + 8) && (bs[r - r0]'(by omega)).getLsbD (7 - (c - c0))
  else false

theorem spriteRowsAt_cons (b : Byte) (bs : List Byte) (c0 r0 c r : Nat) :
    spriteRowsAt (b :: bs) c0 r0 c r = (rowAt b c0 r0 c r || spriteRowsAt bs c0 (r0 + 1) c r) := by
  unfold spriteRowsAt rowAt
  by_cases h0 : r = r0
  · subst h0; simp
  · by_cases h : r0 + 1 ≤ r ∧ r < r0 + 1 + bs.length
    · rw [dif_pos (by simp only [List.length_cons]; omega), dif_pos h]
      have e : r - r0 = r - (r0 + 1) + 1 := by omega
      simp [h0, e]
    · rw [dif_neg (by simp only [List.length_cons]; omega), dif_neg h]
      simp [h0]

theorem rowAt_and_later (b : Byte) (bs : List Byte) (c0 r0 c r : Nat) (h : rowAt b c0 r0 c r = true) :
    spriteRowsAt bs c0 (r0 + 1) c r = false := by
  simp only [rowAt, Bool.and_eq_true, decide_eq_true_eq] at h
  unfold spriteRowsAt
  rw [dif_neg (by omega)]

/-- Every pixel after a sprite: XORed with the sprite's pixel (R194), clipped (R195). -/
theorem Frame.get_composeSprite (c0 : Nat) (bs : List Byte) (r0 : Nat) (acc : Frame × Bool) {c r : Nat}
    (hc : c < 64) (hr : r < 32) :
    Frame.get (composeSprite c0 r0 bs acc).1 c r = (Frame.get acc.1 c r ^^ spriteRowsAt bs c0 r0 c r) := by
  induction bs generalizing r0 acc with
  | nil =>
    have : spriteRowsAt [] c0 r0 c r = false := by
      unfold spriteRowsAt; rw [dif_neg (by simp only [List.length_nil]; omega)]
    simp [composeSprite, this]
  | cons b bs ih =>
    rw [composeSprite, ih, Frame.get_composeRow _ _ _ _ hc hr, spriteRowsAt_cons]
    rcases hrow : rowAt b c0 r0 c r with _ | _
    · simp
    · rw [rowAt_and_later b bs c0 r0 c r hrow]; simp

/-- The flag after a sprite: a lit sprite pixel inside the grid met a pixel that was on before the draw (R192). -/
theorem composeSprite_flag (c0 : Nat) (bs : List Byte) (r0 : Nat) (acc : Frame × Bool) :
    (composeSprite c0 r0 bs acc).2 = true ↔
      acc.2 = true ∨ ∃ c r, spriteRowsAt bs c0 r0 c r = true ∧ Frame.get acc.1 c r = true := by
  induction bs generalizing r0 acc with
  | nil =>
    have : ∀ c r, spriteRowsAt [] c0 r0 c r = false := fun c r => by
      unfold spriteRowsAt; rw [dif_neg (by simp only [List.length_nil]; omega)]
    simp [composeSprite, this]
  | cons b bs ih =>
    rw [composeSprite, ih, composeRow_flag]
    constructor
    · rintro ((h | ⟨c, r, h, hg⟩) | ⟨c, r, h, hg⟩)
      · exact .inl h
      · exact .inr ⟨c, r, by rw [spriteRowsAt_cons, h, Bool.true_or], hg⟩
      · refine .inr ⟨c, r, by rw [spriteRowsAt_cons, h, Bool.or_true], ?_⟩
        by_cases hin : c < 64 ∧ r < 32
        · have hrow : rowAt b c0 r0 c r = false := by
            by_contra hne
            rw [rowAt_and_later b bs c0 r0 c r (by simpa using hne)] at h
            cases h
          rw [Frame.get_composeRow _ _ _ _ hin.1 hin.2, hrow] at hg
          simpa using hg
        · rw [Frame.get_outside _ hin] at hg; cases hg
    · rintro (h | ⟨c, r, h, hg⟩)
      · exact .inl (.inl h)
      · rw [spriteRowsAt_cons, Bool.or_eq_true] at h
        rcases h with h | h
        · exact .inl (.inr ⟨c, r, h, hg⟩)
        · refine .inr ⟨c, r, h, ?_⟩
          by_cases hin : c < 64 ∧ r < 32
          · have hrow : rowAt b c0 r0 c r = false := by
              by_contra hne
              rw [rowAt_and_later b bs c0 r0 c r (by simpa using hne)] at h
              cases h
            rw [Frame.get_composeRow _ _ _ _ hin.1 hin.2, hrow]
            simpa using hg
          · rw [Frame.get_outside _ hin] at hg; cases hg

/-- The sprite a draw reads is the one the statements speak of, for every row whose byte exists; the others are dark. -/
theorem State.spriteRowsAt_readBytes (s : State) (n c0 r0 c r : Nat) :
    spriteRowsAt (s.readBytes s.i.toNat n) c0 r0 c r =
      (decide (s.i.toNat + (r - r0) < memSize) && s.spriteAt n c0 r0 c r) := by
  rw [State.readBytes_eq]
  unfold spriteRowsAt State.spriteAt
  simp only [List.length_map, List.length_range, List.getElem_map, List.getElem_range]
  by_cases hr : r0 ≤ r ∧ r < r0 + n ∧ s.i.toNat + (r - r0) < memSize
  · rw [dif_pos (by omega)]
    simp [hr]
  · rw [dif_neg (by omega)]
    by_cases hm : s.i.toNat + (r - r0) < memSize
    · have : ¬ (c0 ≤ c ∧ c < c0 + 8 ∧ r0 ≤ r ∧ r < r0 + n) := by omega
      simp [this]
    · simp [hm]

/-! ## The notification -/

@[simp] theorem State.notify_v (s : State) : s.notify.v = s.v := by unfold State.notify; split <;> rfl
@[simp] theorem State.notify_i (s : State) : s.notify.i = s.i := by unfold State.notify; split <;> rfl
@[simp] theorem State.notify_pc (s : State) : s.notify.pc = s.pc := by unfold State.notify; split <;> rfl
@[simp] theorem State.notify_stack (s : State) : s.notify.stack = s.stack := by unfold State.notify; split <;> rfl
@[simp] theorem State.notify_dt (s : State) : s.notify.dt = s.dt := by unfold State.notify; split <;> rfl
@[simp] theorem State.notify_st (s : State) : s.notify.st = s.st := by unfold State.notify; split <;> rfl
@[simp] theorem State.notify_mem (s : State) : s.notify.mem = s.mem := by unfold State.notify; split <;> rfl
@[simp] theorem State.notify_fb (s : State) : s.notify.fb = s.fb := by unfold State.notify; split <;> rfl
@[simp] theorem State.notify_faultCause (s : State) : s.notify.faultCause = s.faultCause := by unfold State.notify; split <;> rfl
@[simp] theorem State.notify_faultPc (s : State) : s.notify.faultPc = s.faultPc := by unfold State.notify; split <;> rfl
@[simp] theorem State.notify_faultInfo (s : State) : s.notify.faultInfo = s.faultInfo := by unfold State.notify; split <;> rfl
@[simp] theorem State.notify_cfg (s : State) : s.notify.cfg = s.cfg := by unfold State.notify; split <;> rfl
@[simp] theorem State.notify_loading (s : State) : s.notify.loading = s.loading := by unfold State.notify; split <;> rfl
@[simp] theorem State.notify_env (s : State) : s.notify.env = s.env := by unfold State.notify; split <;> rfl
@[simp] theorem State.notify_draws (s : State) : s.notify.draws = s.draws := by unfold State.notify; split <;> rfl

@[simp] theorem State.reg_notify (s : State) (r : Nibble) : s.notify.reg r = s.reg r :=
  State.reg_congr (State.notify_v s) r
@[simp] theorem State.readByte_notify (s : State) (a : Nat) : s.notify.readByte a = s.readByte a :=
  State.readByte_congr (State.notify_mem s) (State.notify_cfg s) a

/-- A notification changes nothing but the slot and the status. -/
theorem State.notify_eq (s : State) :
    s.notify = { s with slot := s.notify.slot, status := s.notify.status } := by
  unfold State.notify; split <;> rfl

theorem notified_notify (s : State) :
    (s.slot = none → s.notify.slot = some s.fb ∧ s.notify.status = s.status) ∧
    (s.slot ≠ none → s.notify.slot = s.slot ∧ s.notify.status = .notifyPending s.fb) := by
  unfold State.notify
  constructor
  · intro h; rw [h]; exact ⟨rfl, rfl⟩
  · intro h
    split
    · next h' => exact absurd h' h
    · next f h' => exact ⟨rfl, rfl⟩

end Sys2Proof.Machine
end

