-- ==== Sys2Proof/Laws/Flags.lean ====
section
/-! SUPPORT. The results and flags as BitVec arithmetic, and what writing result and flag does (spec/42_alu.md R134). -/

namespace Sys2Proof.Machine

theorem sum_eq (a b : Byte) : sum a b = a + b := by
  simp only [sum, BitVec.ofNat_add, BitVec.ofNat_toNat, BitVec.setWidth_eq]

theorem difference_eq (a b : Byte) : difference a b = a - b := by
  apply BitVec.eq_of_toNat_eq
  simp only [difference, BitVec.toNat_ofNat, BitVec.toNat_sub]
  omega

theorem shiftedRight_eq (a : Byte) : shiftedRight a = a >>> 1 := by
  apply BitVec.eq_of_toNat_eq
  simp only [shiftedRight, BitVec.toNat_ofNat, BitVec.toNat_ushiftRight, Nat.shiftRight_eq_div_pow]
  omega

theorem shiftedLeft_eq (a : Byte) : shiftedLeft a = a <<< 1 := by
  apply BitVec.eq_of_toNat_eq
  simp only [shiftedLeft, BitVec.toNat_ofNat, BitVec.toNat_shiftLeft, Nat.shiftLeft_eq, pow_one]

theorem lowBit_eq (a : Byte) : lowBit a = a.getLsbD 0 := by
  simp only [lowBit, BitVec.getLsbD, Nat.testBit_zero]

theorem highBit_eq (a : Byte) : highBit a = a.getLsbD 7 := by
  have h : a.getLsbD 7 = a.msb := by simp [BitVec.msb_eq_getLsbD_last]
  rw [h, BitVec.msb_eq_decide]
  rfl

theorem tick_toNat (t : Byte) : (tick t).toNat = t.toNat - 1 := by
  unfold tick
  split
  · next h => simp [h]
  · next h =>
    have h0 : t.toNat ≠ 0 := fun h' => h (BitVec.eq_of_toNat_eq (by simpa using h'))
    have h1 : (1 : Byte).toNat = 1 := rfl
    rw [BitVec.toNat_sub, h1]
    omega

/-- writeFlagged meets R134 for every order and every X and Y. -/
theorem flaggedWrite_writeFlagged (s : State) (x y : Nibble) (op : Byte → Byte → Byte) (f : Bool) :
    FlaggedWrite x y op f s (s.writeFlagged x y op f) := by
  have keep : ∀ (t : State) (a b : Byte), OnlyRegs [x, vf] t ((t.setReg x a).setReg vf b) := by
    refine fun t a b => ⟨rfl, fun r hr => ?_, fun _ => rfl⟩
    rw [State.reg_setReg_of_ne _ _ (fun h => hr (by simp [h])), State.reg_setReg_of_ne _ _ (fun h => hr (by simp [h]))]
  have keep' : ∀ (t : State) (a b : Byte), OnlyRegs [x, vf] t ((t.setReg vf a).setReg x b) := by
    refine fun t a b => ⟨rfl, fun r hr => ?_, fun _ => rfl⟩
    rw [State.reg_setReg_of_ne _ _ (fun h => hr (by simp [h])), State.reg_setReg_of_ne _ _ (fun h => hr (by simp [h]))]
  unfold FlaggedWrite State.writeFlagged
  cases s.cfg.vfWriteOrder with
  | flagLast =>
    refine ⟨keep _ _ _, ?_, ?_, ?_, ?_, ?_, ?_⟩ <;> intros <;> simp_all [State.reg_setReg, eq_comm]
  | resultLast =>
    refine ⟨keep' _ _ _, ?_, ?_, ?_, ?_, ?_, ?_⟩ <;> intros <;> simp_all [State.reg_setReg, eq_comm]
  | inPlace =>
    refine ⟨keep' _ _ _, ?_, ?_, ?_, ?_, ?_, ?_⟩ <;> intros <;> simp_all [State.reg_setReg, eq_comm]

/-- A shift of src, read from V[X] after the copy, meets R134. -/
theorem shiftWrite_writeFlagged (s : State) (x y : Nibble) (shift : Byte → Byte) (bit : Byte → Bool) :
    ShiftWrite x (if s.cfg.quirkLegacy then s.reg y else s.reg x) shift
      (bit (if s.cfg.quirkLegacy then s.reg y else s.reg x)) s
      ((s.shiftCopy x y).writeFlagged x x (fun a _ => shift a) (bit ((s.shiftCopy x y).reg x))) := by
  have hreg : (s.shiftCopy x y).reg x = if s.cfg.quirkLegacy then s.reg y else s.reg x := by
    simp [State.shiftCopy]
  have hcfg : (s.shiftCopy x y).cfg = s.cfg := rfl
  have hcopy : OnlyRegs [x] s (s.shiftCopy x y) := onlyRegs_setReg _ _ _
  obtain ⟨⟨he, hr, hm⟩, h1, h2, -, h4, h5, h6⟩ :=
    flaggedWrite_writeFlagged (s.shiftCopy x y) x x (fun a _ => shift a) (bit ((s.shiftCopy x y).reg x))
  rw [← hreg]
  refine ⟨⟨?_, fun r hr' => ?_, fun a => ?_⟩, fun hx => ⟨h1 hx, h2 hx (.inl hx)⟩, fun hx ho => h4 hx (hcfg ▸ ho),
    fun hx ho => ?_, fun hx ho => h6 hx (hcfg ▸ ho)⟩
  · rw [he, hcopy.1]
  · rw [hr r hr', hcopy.2.1 r fun h => hr' (List.mem_cons.mpr (.inl (List.mem_singleton.mp h)))]
  · rw [hm a, hcopy.2.2 a]
  · subst hx; exact h5 rfl (hcfg ▸ ho)

end Sys2Proof.Machine
end

