-- ==== Sys2Proof/Laws/PerInstr.lean ====
section
/-! SUPPORT. Encoding, per instruction: the decoder reads back what the encoder writes. -/

namespace Sys2Proof

theorem toNat_append {m n : Nat} (a : BitVec m) (b : BitVec n) : (a ++ b).toNat = a.toNat * 2 ^ n + b.toNat := by
  rw [BitVec.toNat_append, ← Nat.shiftLeft_add_eq_or_of_lt b.isLt, Nat.shiftLeft_eq]

/-! ## The fields of an assembled word -/

section
variable (f x y n : Nibble) (nn : Byte) (nnn : Addr)

@[simp] theorem fieldF_wordNNN : fieldF (wordNNN f nnn) = f := by
  apply BitVec.eq_of_toNat_eq
  have := f.isLt; have := nnn.isLt
  simp only [fieldF, wordNNN, BitVec.extractLsb'_toNat, toNat_append, Nat.shiftRight_eq_div_pow]
  omega

@[simp] theorem fieldNNN_wordNNN : fieldNNN (wordNNN f nnn) = nnn := by
  apply BitVec.eq_of_toNat_eq
  have := f.isLt; have := nnn.isLt
  simp only [fieldNNN, wordNNN, BitVec.extractLsb'_toNat, toNat_append, Nat.shiftRight_eq_div_pow]
  omega

@[simp] theorem fieldF_wordXNN : fieldF (wordXNN f x nn) = f := by
  apply BitVec.eq_of_toNat_eq
  have := f.isLt; have := x.isLt; have := nn.isLt
  simp only [fieldF, wordXNN, BitVec.extractLsb'_toNat, toNat_append, Nat.shiftRight_eq_div_pow]
  omega

@[simp] theorem fieldX_wordXNN : fieldX (wordXNN f x nn) = x := by
  apply BitVec.eq_of_toNat_eq
  have := f.isLt; have := x.isLt; have := nn.isLt
  simp only [fieldX, wordXNN, BitVec.extractLsb'_toNat, toNat_append, Nat.shiftRight_eq_div_pow]
  omega

@[simp] theorem fieldNN_wordXNN : fieldNN (wordXNN f x nn) = nn := by
  apply BitVec.eq_of_toNat_eq
  have := f.isLt; have := x.isLt; have := nn.isLt
  simp only [fieldNN, wordXNN, BitVec.extractLsb'_toNat, toNat_append, Nat.shiftRight_eq_div_pow]
  omega

@[simp] theorem fieldF_wordXYN : fieldF (wordXYN f x y n) = f := by
  apply BitVec.eq_of_toNat_eq
  have := f.isLt; have := x.isLt; have := y.isLt; have := n.isLt
  simp only [fieldF, wordXYN, BitVec.extractLsb'_toNat, toNat_append, Nat.shiftRight_eq_div_pow]
  omega

@[simp] theorem fieldX_wordXYN : fieldX (wordXYN f x y n) = x := by
  apply BitVec.eq_of_toNat_eq
  have := f.isLt; have := x.isLt; have := y.isLt; have := n.isLt
  simp only [fieldX, wordXYN, BitVec.extractLsb'_toNat, toNat_append, Nat.shiftRight_eq_div_pow]
  omega

@[simp] theorem fieldY_wordXYN : fieldY (wordXYN f x y n) = y := by
  apply BitVec.eq_of_toNat_eq
  have := f.isLt; have := x.isLt; have := y.isLt; have := n.isLt
  simp only [fieldY, wordXYN, BitVec.extractLsb'_toNat, toNat_append, Nat.shiftRight_eq_div_pow]
  omega

@[simp] theorem fieldN_wordXYN : fieldN (wordXYN f x y n) = n := by
  apply BitVec.eq_of_toNat_eq
  have := f.isLt; have := x.isLt; have := y.isLt; have := n.isLt
  simp only [fieldN, wordXYN, BitVec.extractLsb'_toNat, toNat_append, Nat.shiftRight_eq_div_pow]
  omega

end

namespace Laws.RoundTrip

/-- A well-formed instruction's word decodes to it. -/
def Statement (i : Instr) : Prop := i.wellFormed = true → decode (encode i) = i

theorem cls : Statement (.cls) := by
  intro _; decide

theorem ret : Statement (.ret) := by
  intro _; decide

theorem sys (nnn : Addr) : Statement (.sys nnn) := by
  intro h
  simp_all [Instr.wellFormed, encode, decode, decodeFamily0, family0Keys]

theorem jp (nnn : Addr) : Statement (.jp nnn) := by
  intro _; simp [encode, decode]

theorem call (nnn : Addr) : Statement (.call nnn) := by
  intro _; simp [encode, decode]

theorem seByte (x : Nibble) (nn : Byte) : Statement (.seByte x nn) := by
  intro _; simp [encode, decode]

theorem sneByte (x : Nibble) (nn : Byte) : Statement (.sneByte x nn) := by
  intro _; simp [encode, decode]

theorem seReg (x : Nibble) (y : Nibble) (n : Nibble) : Statement (.seReg x y n) := by
  intro _; simp [encode, decode]

theorem ldByte (x : Nibble) (nn : Byte) : Statement (.ldByte x nn) := by
  intro _; simp [encode, decode]

theorem addByte (x : Nibble) (nn : Byte) : Statement (.addByte x nn) := by
  intro _; simp [encode, decode]

theorem ldReg (x : Nibble) (y : Nibble) : Statement (.ldReg x y) := by
  intro _; simp [encode, decode, decodeFamily8]

theorem orReg (x : Nibble) (y : Nibble) : Statement (.orReg x y) := by
  intro _; simp [encode, decode, decodeFamily8]

theorem andReg (x : Nibble) (y : Nibble) : Statement (.andReg x y) := by
  intro _; simp [encode, decode, decodeFamily8]

theorem xorReg (x : Nibble) (y : Nibble) : Statement (.xorReg x y) := by
  intro _; simp [encode, decode, decodeFamily8]

theorem addReg (x : Nibble) (y : Nibble) : Statement (.addReg x y) := by
  intro _; simp [encode, decode, decodeFamily8]

theorem subReg (x : Nibble) (y : Nibble) : Statement (.subReg x y) := by
  intro _; simp [encode, decode, decodeFamily8]

theorem shrReg (x : Nibble) (y : Nibble) : Statement (.shrReg x y) := by
  intro _; simp [encode, decode, decodeFamily8]

theorem subnReg (x : Nibble) (y : Nibble) : Statement (.subnReg x y) := by
  intro _; simp [encode, decode, decodeFamily8]

theorem shlReg (x : Nibble) (y : Nibble) : Statement (.shlReg x y) := by
  intro _; simp [encode, decode, decodeFamily8]

theorem nop88 (x : Nibble) (y : Nibble) : Statement (.nop88 x y) := by
  intro _; simp [encode, decode, decodeFamily8]

theorem nop89 (x : Nibble) (y : Nibble) : Statement (.nop89 x y) := by
  intro _; simp [encode, decode, decodeFamily8]

theorem nop8A (x : Nibble) (y : Nibble) : Statement (.nop8A x y) := by
  intro _; simp [encode, decode, decodeFamily8]

theorem nop8B (x : Nibble) (y : Nibble) : Statement (.nop8B x y) := by
  intro _; simp [encode, decode, decodeFamily8]

theorem nop8C (x : Nibble) (y : Nibble) : Statement (.nop8C x y) := by
  intro _; simp [encode, decode, decodeFamily8]

theorem nop8D (x : Nibble) (y : Nibble) : Statement (.nop8D x y) := by
  intro _; simp [encode, decode, decodeFamily8]

theorem nop8F (x : Nibble) (y : Nibble) : Statement (.nop8F x y) := by
  intro _; simp [encode, decode, decodeFamily8]

theorem sneReg (x : Nibble) (y : Nibble) (n : Nibble) : Statement (.sneReg x y n) := by
  intro _; simp [encode, decode]

theorem ldI (nnn : Addr) : Statement (.ldI nnn) := by
  intro _; simp [encode, decode]

theorem jpV0 (nnn : Addr) : Statement (.jpV0 nnn) := by
  intro _; simp [encode, decode]

theorem rnd (x : Nibble) (nn : Byte) : Statement (.rnd x nn) := by
  intro _; simp [encode, decode]

theorem drw (x : Nibble) (y : Nibble) (n : Nibble) : Statement (.drw x y n) := by
  intro _; simp [encode, decode]

theorem skp (x : Nibble) : Statement (.skp x) := by
  intro _; simp [encode, decode, decodeFamilyE]

theorem sknp (x : Nibble) : Statement (.sknp x) := by
  intro _; simp [encode, decode, decodeFamilyE]

theorem nopE (x : Nibble) (nn : Byte) : Statement (.nopE x nn) := by
  intro h
  simp_all [Instr.wellFormed, encode, decode, decodeFamilyE, familyEKeys]

theorem ldVxDt (x : Nibble) : Statement (.ldVxDt x) := by
  intro _; simp [encode, decode, decodeFamilyF]

theorem ldVxK (x : Nibble) : Statement (.ldVxK x) := by
  intro _; simp [encode, decode, decodeFamilyF]

theorem ldDtVx (x : Nibble) : Statement (.ldDtVx x) := by
  intro _; simp [encode, decode, decodeFamilyF]

theorem ldStVx (x : Nibble) : Statement (.ldStVx x) := by
  intro _; simp [encode, decode, decodeFamilyF]

theorem addI (x : Nibble) : Statement (.addI x) := by
  intro _; simp [encode, decode, decodeFamilyF]

theorem ldF (x : Nibble) : Statement (.ldF x) := by
  intro _; simp [encode, decode, decodeFamilyF]

theorem ldB (x : Nibble) : Statement (.ldB x) := by
  intro _; simp [encode, decode, decodeFamilyF]

theorem storeRegs (x : Nibble) : Statement (.storeRegs x) := by
  intro _; simp [encode, decode, decodeFamilyF]

theorem loadRegs (x : Nibble) : Statement (.loadRegs x) := by
  intro _; simp [encode, decode, decodeFamilyF]

theorem nopF (x : Nibble) (nn : Byte) : Statement (.nopF x nn) := by
  intro h
  simp_all [Instr.wellFormed, encode, decode, decodeFamilyF, familyFKeys]

end Laws.RoundTrip

end Sys2Proof
end

