-- ==== Sys2Proof/Laws/Step.lean ====
section
/-! SUPPORT. What a step can do, said once (spec/40_engine.md R90, spec/60_exceptions.md R221): the next event of another
agent, or one of the engine's turns. -/

namespace Sys2Proof.Machine

/-- A step is the next event of another agent, or the engine's turn with the other agents' next events drawn after it. -/
theorem step_cases {s t : State} (h : step s = .next t) :
    (∃ e rest, s.env = e :: rest ∧ t = ({ s with env := rest } : State).applyEvent e) ∨
    (s.env = [] ∧ ∃ u, s.engineTurn = .next u ∧ t = u.environmentNext) := by
  unfold step State.machineStep at h
  split at h
  · next e rest he => cases h; exact .inl ⟨e, rest, he, rfl⟩
  · next he =>
    refine .inr ⟨he, ?_⟩
    cases hu : s.engineTurn with
    | next u => rw [hu] at h; cases h; exact ⟨u, rfl, rfl⟩
    | fault r => rw [hu] at h; cases h
    | refused r => rw [hu] at h; cases h

/-- The engine's turn: it takes no step (before `run`, waiting, stalled or halted), places a waiting snapshot, raises the
fetch fault, or executes the instruction at PC. -/
theorem State.engineTurn_cases {s u : State} (h : s.engineTurn = .next u) :
    (u = s ∧ (s.loading = true ∨ s.status ≠ .running)) ∨
    (∃ frame, s.loading = false ∧ s.status = .notifyPending frame ∧ s.slot = none ∧
      u = { s with slot := some frame, status := .running }) ∨
    (s.loading = false ∧ s.status = .running ∧ 4095 ≤ s.pc.toNat ∧ u = s.raise .fetchOutOfMemory s.pc s.pc) ∨
    (s.loading = false ∧ s.status = .running ∧ s.pc.toNat ≤ 4094 ∧ exec (decode s.fetchWord) s.advance = .next u) := by
  unfold State.engineTurn at h
  split at h
  · next hl => cases h; exact .inl ⟨rfl, .inl hl⟩
  · next hl =>
    have hl : s.loading = false := by simpa using hl
    split at h
    · next hs =>
      unfold State.engineStep at h
      split at h
      · next hf =>
        cases h
        exact .inr (.inr (.inl ⟨hl, hs, by simpa [State.fetchFaults, memSize] using hf, rfl⟩))
      · next hf =>
        have hf : s.pc.toNat < 4095 := by simpa [State.fetchFaults, memSize] using hf
        exact .inr (.inr (.inr ⟨hl, hs, by omega, h⟩))
    · next frame hs =>
      cases h
      unfold State.placePending
      split
      · next hslot => exact .inr (.inl ⟨frame, hl, hs, hslot, rfl⟩)
      · exact .inl ⟨rfl, .inr (by rw [hs]; simp)⟩
    · next hs => cases h; exact .inl ⟨rfl, .inr (by rw [hs]; simp)⟩
    · next hs => cases h; exact .inl ⟨rfl, .inr (by rw [hs]; simp)⟩

/-- No instruction touches the parameters, the load phase or the other agents' events. -/
theorem exec_keeps_outside {i : Instr} {s t : State} (h : exec i s = .next t) :
    t.cfg = s.cfg ∧ t.loading = s.loading ∧ t.env = s.env := by
  have store : ∀ (bytes : List Byte) (done : State → State),
      (∀ u, (done u).cfg = u.cfg ∧ (done u).loading = u.loading ∧ (done u).env = u.env) →
      (s.storeFromIndex bytes done).cfg = s.cfg ∧ (s.storeFromIndex bytes done).loading = s.loading ∧
        (s.storeFromIndex bytes done).env = s.env := by
    intro bytes done hd
    rcases State.storeFromIndex_cases s bytes done with h | ⟨bad, h⟩
    · rw [h, State.writeBytes_eq]; exact hd _
    · rw [h, State.writeBytes_eq]; exact ⟨rfl, rfl, rfl⟩
  cases i <;> simp only [exec] at h
  case ret => unfold execRet at h; split at h <;> cases h <;> exact ⟨rfl, rfl, rfl⟩
  case call => unfold execCall at h; split at h <;> cases h <;> exact ⟨rfl, rfl, rfl⟩
  case cls => cases h; exact ⟨by simp, by simp, by simp⟩
  case drw => unfold execDrw at h; dsimp only at h; split at h <;> cases h <;> exact ⟨by simp, by simp, by simp⟩
  case ldB x => cases h; exact store _ id fun _ => ⟨rfl, rfl, rfl⟩
  case storeRegs x => cases h; exact store _ _ fun _ => ⟨rfl, rfl, rfl⟩
  case loadRegs x =>
    unfold execLoadRegs at h
    split at h <;> cases h <;> rw [State.loadBytes_eq] <;> exact ⟨rfl, rfl, rfl⟩
  case seByte | sneByte | seReg | sneReg | skp | sknp => cases h; exact ⟨by simp, by simp, by simp⟩
  case orReg x y => cases h; unfold State.writeLogic State.writeFlagged; repeat' split
                    all_goals exact ⟨rfl, rfl, rfl⟩
  case andReg x y => cases h; unfold State.writeLogic State.writeFlagged; repeat' split
                     all_goals exact ⟨rfl, rfl, rfl⟩
  case xorReg x y => cases h; unfold State.writeLogic State.writeFlagged; repeat' split
                     all_goals exact ⟨rfl, rfl, rfl⟩
  case addReg | subReg | subnReg => cases h; rw [(flaggedWrite_writeFlagged _ _ _ _ _).1.1]; exact ⟨rfl, rfl, rfl⟩
  case shrReg x y => cases h; rw [(shiftWrite_writeFlagged s x y shiftedRight lowBit).1.1]; exact ⟨rfl, rfl, rfl⟩
  case shlReg x y => cases h; rw [(shiftWrite_writeFlagged s x y shiftedLeft highBit).1.1]; exact ⟨rfl, rfl, rfl⟩
  all_goals cases h; exact ⟨rfl, rfl, rfl⟩

/-- The fault record is as before. -/
def SameRecord (s t : State) : Prop :=
  t.faultCause = s.faultCause ∧ t.faultPc = s.faultPc ∧ t.faultInfo = s.faultInfo

/-- What an instruction does to status and fault record: neither changes; it suspends the engine; or it halts it with the
record its cause calls for, at its own address, PC kept (R211, R214, R215). -/
theorem exec_record_cases {i : Instr} {s t : State} (h : exec i s = .next t) :
    (t.status = s.status ∧ SameRecord s t) ∨ (t.status ≠ .halted ∧ SameRecord s t) ∨
    (t.status = .halted ∧ t.pc = s.pc ∧ t.faultPc = s.pc - 2 ∧
      ((t.faultCause = .stackUnderflow ∧ t.faultInfo = 0) ∨
       (t.faultCause = .stackOverflow ∧ t.faultInfo.toNat < 4096) ∨
       (t.faultCause = .dataOutOfRange ∧ t.i = s.i ∧ t.faultInfo.toNat = max s.i.toNat memSize))) := by
  have store : ∀ (bytes : List Byte) (done : State → State),
      (∀ u, (done u).status = u.status ∧ SameRecord u (done u)) →
      ((s.storeFromIndex bytes done).status = s.status ∧ SameRecord s (s.storeFromIndex bytes done)) ∨
      ((s.storeFromIndex bytes done).status = .halted ∧ (s.storeFromIndex bytes done).pc = s.pc ∧
        (s.storeFromIndex bytes done).faultPc = s.pc - 2 ∧
        (s.storeFromIndex bytes done).faultCause = .dataOutOfRange ∧ (s.storeFromIndex bytes done).i = s.i ∧
        (s.storeFromIndex bytes done).faultInfo.toNat = max s.i.toNat memSize) := by
    intro bytes done hd
    unfold State.storeFromIndex
    split
    · have := hd (s.writeBytes (fun _ => true) s.i.toNat 0 bytes)
      rw [State.writeBytes_eq] at this ⊢
      exact .inl this
    · next hb =>
      rw [State.writeBytes_eq]
      exact .inr ⟨rfl, rfl, rfl, rfl, rfl, firstOutOfRange_toNat hb⟩
  cases i <;> simp only [exec] at h
  case ret =>
    unfold execRet at h
    split at h <;> cases h
    · exact .inr (.inr ⟨rfl, rfl, rfl, .inl ⟨rfl, rfl⟩⟩)
    · exact .inl ⟨rfl, rfl, rfl, rfl⟩
  case call nnn =>
    unfold execCall at h
    split at h <;> cases h
    · refine .inr (.inr ⟨rfl, rfl, rfl, .inr (.inl ⟨rfl, ?_⟩)⟩)
      have := nnn.isLt
      simp only [State.raiseHere_faultInfo, addrOperand, BitVec.toNat_setWidth]; omega
    · exact .inl ⟨rfl, rfl, rfl, rfl⟩
  case cls =>
    cases h
    unfold State.notify
    split
    · exact .inl ⟨rfl, rfl, rfl, rfl⟩
    · exact .inr (.inl ⟨by simp, rfl, rfl, rfl⟩)
  case drw =>
    unfold execDrw at h
    dsimp only at h
    split at h <;> cases h
    · unfold State.notify
      split
      · exact .inl ⟨rfl, rfl, rfl, rfl⟩
      · exact .inr (.inl ⟨by simp, rfl, rfl, rfl⟩)
    · next hb => exact .inr (.inr ⟨rfl, rfl, rfl, .inr (.inr ⟨rfl, rfl, firstOutOfRange_toNat hb⟩)⟩)
  case ldB x =>
    cases h
    rcases store (decimalDigits (s.reg x)) id fun _ => ⟨rfl, rfl, rfl, rfl⟩ with h | h
    · exact .inl h
    · exact .inr (.inr ⟨h.1, h.2.1, h.2.2.1, .inr (.inr h.2.2.2)⟩)
  case storeRegs x =>
    cases h
    rcases store (s.regsTo x) (fun t => { t with i := s.indexAfterBlock x }) fun _ => ⟨rfl, rfl, rfl, rfl⟩ with h | h
    · exact .inl h
    · exact .inr (.inr ⟨h.1, h.2.1, h.2.2.1, .inr (.inr h.2.2.2)⟩)
  case loadRegs x =>
    unfold execLoadRegs at h
    split at h <;> cases h <;> rw [State.loadBytes_eq]
    · exact .inl ⟨rfl, rfl, rfl, rfl⟩
    · next hb => exact .inr (.inr ⟨rfl, rfl, rfl, .inr (.inr ⟨rfl, rfl, firstOutOfRange_toNat hb⟩)⟩)
  case ldVxK => cases h; exact .inr (.inl ⟨by simp, rfl, rfl, rfl⟩)
  case orReg x y => cases h; left; unfold State.writeLogic State.writeFlagged; repeat' split
                    all_goals exact ⟨rfl, rfl, rfl, rfl⟩
  case andReg x y => cases h; left; unfold State.writeLogic State.writeFlagged; repeat' split
                     all_goals exact ⟨rfl, rfl, rfl, rfl⟩
  case xorReg x y => cases h; left; unfold State.writeLogic State.writeFlagged; repeat' split
                     all_goals exact ⟨rfl, rfl, rfl, rfl⟩
  case addReg | subReg | subnReg =>
    cases h; rw [(flaggedWrite_writeFlagged _ _ _ _ _).1.1]; exact .inl ⟨rfl, rfl, rfl, rfl⟩
  case shrReg x y =>
    cases h; rw [(shiftWrite_writeFlagged s x y shiftedRight lowBit).1.1]; exact .inl ⟨rfl, rfl, rfl, rfl⟩
  case shlReg x y =>
    cases h; rw [(shiftWrite_writeFlagged s x y shiftedLeft highBit).1.1]; exact .inl ⟨rfl, rfl, rfl, rfl⟩
  all_goals cases h; exact .inl ⟨rfl, rfl, rfl, rfl⟩

end Sys2Proof.Machine
end

