-- ==== Sys2Proof/Tests/Slice0.lean ====
section
/-! SUPPORT. Tests against spec/95_test_vectors.md (named by their ids) and the encodings of spec/30_encoding.md, and a
witness for the hypotheses of every statement of Certificates/Slice0. -/

namespace Sys2Proof.Tests

open Sys2Proof.Machine

/-! ## The machine the tests run on: no free parameter -/

/-- The defaults of R5 with QUIRK_LEGACY as given. -/
def params (legacy : Bool) : Params where
  quirkLegacy := legacy
  storeLoadIncrementsI := legacy
  stackDepth := .unbounded
  vfWriteOrder := .flagLast
  logicResetsVf := false
  font := conventionalFont

/-- The launch state of R243 with an empty image. -/
def launched (legacy : Bool) : State := { State.reset with loading := false, cfg := params legacy }

/-- SUPER-CHIP. -/
def m0 : State := launched false

/-- Original CHIP-8. -/
def m1 : State := launched true

/-- m0 with another VF_WRITE_ORDER. -/
def ordered (o : VfWriteOrder) (s : State) : State := { s with cfg := { s.cfg with vfWriteOrder := o } }

/-- One step on the word w placed at PC. -/
def ran (w : Nat) (s : State) : Result := step (s.withFetchWord 16 w)

/-- The answer is a next state with the given property. -/
def gives (r : Result) (p : State → Bool) : Bool :=
  match r with
  | .next t => p t
  | .fault _ => false
  | .refused _ => false

/-- HALTED with the given record. -/
def haltedWith (c : Cause) (pc info : Half) (t : State) : Bool :=
  t.status == .halted && t.faultCause == c && t.faultPc == pc && t.faultInfo == info

theorem step_answers {s : State} (h : gives (step s) (fun _ => true) = true) : ∃ t, step s = .next t := by
  cases hs : step s with
  | next t => exact ⟨t, rfl⟩
  | fault r => rw [hs] at h; cases h
  | refused r => rw [hs] at h; cases h

/-! ## WellFormed: each check refuses a term -/

theorem test_sys_00E0_is_ill_formed : (Instr.sys 0x0E0).wellFormed = false := by decide
theorem test_sys_00EE_is_ill_formed : (Instr.sys 0x0EE).wellFormed = false := by decide
theorem test_nopE_9E_is_ill_formed : (Instr.nopE 3 0x9E).wellFormed = false := by decide
theorem test_nopE_A1_is_ill_formed : (Instr.nopE 3 0xA1).wellFormed = false := by decide
theorem test_nopF_keys_are_ill_formed :
    (familyFKeys.map fun nn => (Instr.nopF 2 nn).wellFormed) = List.replicate 9 false := by decide
theorem test_sys_1E0_is_well_formed : (Instr.sys 0x1E0).wellFormed = true := by decide

/-! ## Decode: every constructor, from a word written out from R74 -/

theorem test_decode_family_0 :
    decode 0x00E0 = .cls ∧ decode 0x00EE = .ret ∧ decode 0x01E0 = .sys 0x1E0 ∧ decode 0x0FEE = .sys 0xFEE := by decide
theorem test_decode_families_1_to_7 :
    decode 0x1ABC = .jp 0xABC ∧ decode 0x2DEF = .call 0xDEF ∧ decode 0x3A4B = .seByte 0xA 0x4B ∧
    decode 0x4C5D = .sneByte 0xC 0x5D ∧ decode 0x5123 = .seReg 1 2 3 ∧ decode 0x6E7F = .ldByte 0xE 0x7F ∧
    decode 0x7801 = .addByte 8 0x01 := by decide
theorem test_decode_family_8 :
    decode 0x8120 = .ldReg 1 2 ∧ decode 0x8121 = .orReg 1 2 ∧ decode 0x8122 = .andReg 1 2 ∧
    decode 0x8123 = .xorReg 1 2 ∧ decode 0x8124 = .addReg 1 2 ∧ decode 0x8125 = .subReg 1 2 ∧
    decode 0x8126 = .shrReg 1 2 ∧ decode 0x8127 = .subnReg 1 2 ∧ decode 0x812E = .shlReg 1 2 := by decide
theorem test_decode_family_8_no_ops :
    decode 0x8128 = .nop88 1 2 ∧ decode 0x8129 = .nop89 1 2 ∧ decode 0x812A = .nop8A 1 2 ∧
    decode 0x812B = .nop8B 1 2 ∧ decode 0x812C = .nop8C 1 2 ∧ decode 0x812D = .nop8D 1 2 ∧
    decode 0x812F = .nop8F 1 2 := by decide
theorem test_decode_families_9_to_D :
    decode 0x9567 = .sneReg 5 6 7 ∧ decode 0xA205 = .ldI 0x205 ∧ decode 0xBFFF = .jpV0 0xFFF ∧
    decode 0xC30F = .rnd 3 0x0F ∧ decode 0xD125 = .drw 1 2 5 := by decide
theorem test_decode_family_E : decode 0xE39E = .skp 3 ∧ decode 0xE3A1 = .sknp 3 ∧ decode 0xE1FF = .nopE 1 0xFF := by
  decide
theorem test_decode_family_F :
    decode 0xF407 = .ldVxDt 4 ∧ decode 0xF50A = .ldVxK 5 ∧ decode 0xF315 = .ldDtVx 3 ∧ decode 0xF318 = .ldStVx 3 ∧
    decode 0xFF1E = .addI 0xF ∧ decode 0xF029 = .ldF 0 ∧ decode 0xFA33 = .ldB 0xA ∧ decode 0xF255 = .storeRegs 2 ∧
    decode 0xF265 = .loadRegs 2 ∧ decode 0xF075 = .nopF 0 0x75 := by decide

/-- One word of each family bit by bit: family, X, Y, N. -/
theorem test_decode_bit_by_bit :
    decode 0b0000_0000_1110_0000#16 = .cls ∧ decode 0b0001_1010_1011_1100#16 = .jp 0xABC ∧
    decode 0b0010_0010_0001_0000#16 = .call 0x210 ∧ decode 0b0011_0010_0000_0101#16 = .seByte 2 5 ∧
    decode 0b0100_0010_0000_0101#16 = .sneByte 2 5 ∧ decode 0b0101_0001_0010_0000#16 = .seReg 1 2 0 ∧
    decode 0b0110_1010_0111_1011#16 = .ldByte 10 0x7B ∧ decode 0b0111_0000_1111_1111#16 = .addByte 0 0xFF ∧
    decode 0b1000_0010_0011_0101#16 = .subReg 2 3 ∧ decode 0b1001_0001_0010_0000#16 = .sneReg 1 2 0 ∧
    decode 0b1010_0011_0000_0000#16 = .ldI 0x300 ∧ decode 0b1011_0101_0010_0000#16 = .jpV0 0x520 ∧
    decode 0b1100_0011_0000_1111#16 = .rnd 3 0x0F ∧ decode 0b1101_0000_0001_0010#16 = .drw 0 1 2 ∧
    decode 0b1110_0011_1010_0001#16 = .sknp 3 ∧ decode 0b1111_0010_0110_0101#16 = .loadRegs 2 := by decide

/-- Part 2.1 of 95. -/
theorem test_decode_fields_D125_8F1E :
    (fieldF 0xD125, fieldX 0xD125, fieldY 0xD125, fieldN 0xD125, fieldNN 0xD125, fieldNNN 0xD125) =
      (0xD, 0x1, 0x2, 0x5, 0x25, 0x125) ∧
    (fieldF 0x8F1E, fieldX 0x8F1E, fieldY 0x8F1E, fieldN 0x8F1E, fieldNN 0x8F1E, fieldNNN 0x8F1E) =
      (0x8, 0xF, 0x1, 0xE, 0x1E, 0xF1E) := by decide

/-- E1: 0xA2 is the byte at PC. -/
theorem test_decode_bytes_high_first : decodeBytes [0xA2, 0x05, 0xF0] = .ok (.ldI 0x205, [0xF0]) := by decide
theorem test_decode_one_byte_is_refused : decodeBytes [0xA2] = .error .fewerThanTwoBytes := by decide
theorem test_decodeTableWord_bits_above_nbits_are_zero : decodeTableWord 8 0xFFE0 = some .cls := by decide

/-! ## Reset, fetch and dispatch (2.2, 2.9) -/

theorem test_reset_memory :
    [49, 50, 51, 54, 125, 126, 129, 130, 0x200].map State.reset.readByte =
      [0x00, 0xF0, 0x90, 0xF0, 0xF0, 0x80, 0x80, 0x00, 0x00] := by decide
/-- E6. -/
theorem test_E6_load_places_bytes :
    gives (State.launch [0xA2, 0x05, 0xF0]) (fun t => t.pc == 0x200 && t.readByte 0x200 == 0xA2 &&
      t.readByte 0x201 == 0x05 && t.readByte 0x202 == 0xF0 && t.readByte 0x203 == 0x00) = true := by decide
theorem test_F1_word_at_pc_runs :
    gives (ran 0x6105 m0) (fun t => t.reg 1 == 5 && t.pc == 0x202) = true := by decide
theorem test_F2_last_word :
    gives (step { m0 with pc := 0xFFE }) (fun t => t.pc == 0x1000 && t.status == .running) = true := by decide
theorem test_F3_fetch_at_1000 :
    gives (step { m0 with pc := 0x1000 })
      (fun t => haltedWith .fetchOutOfMemory 0x1000 0x1000 t && t.pc == 0x1000) = true := by decide
theorem test_F4_fetch_at_FFF :
    gives (step { m0 with pc := 0xFFF }) (haltedWith .fetchOutOfMemory 0xFFF 0xFFF) = true := by decide
theorem test_F5_odd_pc :
    gives (ran 0x6107 { m0 with pc := 0x201 }) (fun t => t.reg 1 == 7 && t.pc == 0x203) = true := by decide
/-- F6 to F10: nothing but the fetch advance. -/
theorem test_F6_to_F10_no_ops :
    ([0x0123, 0x8128, 0x8129, 0x812A, 0x812B, 0x812C, 0x812D, 0x812F, 0xE1FF, 0xF075, 0x01E0].map fun w =>
      gives (ran w m0) fun t => t.pc == 0x202 && t.v == m0.v && t.status == .running && t.slot == none) =
      List.replicate 11 true := by decide
/-- The host's first question: the word runs as the first instruction after State.reset. -/
theorem test_withFetchWord_runs_after_reset :
    gives (step (State.reset.withFetchWord 16 0x6A7B)) (fun t => t.reg 0xA == 0x7B && t.pc == 0x202) = true := by decide
/-- From reset with nothing placed the engine waits for `run` (log 10). -/
theorem test_reset_waits_for_run : gives (step State.reset) (fun t => t.pc == 0x200 && t.loading) = true := by decide

/-! ## Control transfer and skips (2.3) -/

theorem test_CF1_jp : gives (ran 0x1ABC m0) (fun t => t.pc == 0xABC) = true := by decide
theorem test_CF3_call :
    gives (ran 0x2210 { m0 with pc := 0x204 }) (fun t => t.pc == 0x210 && t.stack == [0x206]) = true := by decide
theorem test_CF6_call_on_full_stack :
    gives (ran 0x2300 { m0 with pc := 0x210, stack := [0x206], cfg := { params false with stackDepth := .finite 1 } })
      (fun t => haltedWith .stackOverflow 0x210 0x300 t && t.stack == [0x206] && t.pc == 0x212) = true := by decide
theorem test_CF4_ret :
    gives (ran 0x00EE { m0 with pc := 0x212, stack := [0x206] }) (fun t => t.pc == 0x206 && t.stack == []) = true := by
  decide
theorem test_CF5_ret_on_empty_stack :
    gives (ran 0x00EE m0) (fun t => haltedWith .stackUnderflow 0x200 0 t && t.pc == 0x202) = true := by decide
theorem test_CF9_jp_v0_passes_FFF :
    gives (ran 0xBFFF (m0.setReg 0 0xFF)) (fun t => t.pc == 0x10FE) = true := by decide
theorem test_CF10_jp_v0_uses_v0 :
    gives (ran 0xB520 ((m0.setReg 0 1).setReg 5 0x40)) (fun t => t.pc == 0x521) = true := by decide
theorem test_CF11_CF12_se_byte :
    gives (ran 0x3205 (m0.setReg 2 5)) (·.pc == 0x204) = true ∧ gives (ran 0x3205 (m0.setReg 2 6)) (·.pc == 0x202) = true := by
  decide
theorem test_CF13_CF14_sne_byte :
    gives (ran 0x4205 (m0.setReg 2 5)) (·.pc == 0x202) = true ∧ gives (ran 0x4205 (m0.setReg 2 6)) (·.pc == 0x204) = true := by
  decide
theorem test_CF16_se_reg_ignores_n :
    gives (ran 0x5121 ((m0.setReg 1 7).setReg 2 7)) (·.pc == 0x204) = true := by decide
theorem test_CF17_sne_reg : gives (ran 0x9120 ((m0.setReg 1 7).setReg 2 8)) (·.pc == 0x204) = true := by decide
theorem test_CF18_sne_reg_same : gives (ran 0x9110 (m0.setReg 1 7)) (·.pc == 0x202) = true := by decide
/-- CF20 and CF21: taken or not, as the host answers. -/
theorem test_CF20_CF21_skp :
    ∃ t, exec (.skp 3) (m0.setReg 3 5) = .next t ∧ t.pc = if Config.keyPressed 0 5 then 0x202 else 0x200 := ⟨_, rfl, rfl⟩
/-- CF22. -/
theorem test_CF22_sknp :
    ∃ t, exec (.sknp 3) (m0.setReg 3 5) = .next t ∧ t.pc = if !Config.keyPressed 0 5 then 0x202 else 0x200 := ⟨_, rfl, rfl⟩
theorem test_CF25_skip_to_1000 :
    gives (ran 0x3000 { m0 with pc := 0xFFC }) (·.pc == 0x1000) = true := by decide

/-! ## Loads, arithmetic, logic, shifts and random (2.4) -/

theorem test_A1_ld_byte : gives (ran 0x6A7B m0) (·.reg 0xA == 0x7B) = true := by decide
theorem test_A2_add_byte_no_flag :
    gives (ran 0x7001 ((m0.setReg 0 0xFF).setReg vf 0x55)) (fun t => t.reg 0 == 0 && t.reg vf == 0x55) = true := by decide
theorem test_A4_ld_reg : gives (ran 0x8A30 (m0.setReg 3 0x12)) (·.reg 0xA == 0x12) = true := by decide
theorem test_A5_or :
    gives (ran 0x8121 (((m0.setReg 1 0x0F).setReg 2 0xF0).setReg vf 7))
      (fun t => t.reg 1 == 0xFF && t.reg vf == 7) = true := by decide
/-- A35, its three orders. -/
theorem test_A35_or_resets_vf :
    ([VfWriteOrder.flagLast, .resultLast, .inPlace].map fun o =>
      gives (ran 0x8F21 { (m0.setReg 2 0xF0).setReg vf 0x0F with
        cfg := { params false with vfWriteOrder := o, logicResetsVf := true } })
        (·.reg vf == match o with | .flagLast => 0x00 | .resultLast => 0xFF | .inPlace => 0xF0)) =
      [true, true, true] := by decide
theorem test_A6_and : gives (ran 0x8122 ((m0.setReg 1 0x3C).setReg 2 0x0F)) (·.reg 1 == 0x0C) = true := by decide
theorem test_A7_xor : gives (ran 0x8123 ((m0.setReg 1 0x3C).setReg 2 0x0F)) (·.reg 1 == 0x33) = true := by decide
theorem test_A9_add :
    gives (ran 0x8014 ((m0.setReg 0 0xF4).setReg 1 0xF4)) (fun t => t.reg 0 == 0xE8 && t.reg vf == 1) = true := by decide
/-- A28 and A34, each in its three orders. -/
theorem test_A28_A34_add_with_vf :
    ([VfWriteOrder.flagLast, .resultLast, .inPlace].map fun o =>
      gives (ran 0x8F14 (ordered o ((m0.setReg 1 0xF5).setReg vf 0x10)))
        (·.reg vf == match o with | .flagLast => 0x01 | .resultLast => 0x05 | .inPlace => 0xF6) &&
      gives (ran 0x81F4 (ordered o ((m0.setReg 1 0xF0).setReg vf 0x20)))
        (fun t => t.reg vf == 1 && t.reg 1 == match o with | .flagLast => 0x10 | .resultLast => 0x10 | .inPlace => 0xF1)) =
      [true, true, true] := by decide
theorem test_A13_A15_sub :
    gives (ran 0x8235 ((m0.setReg 2 5).setReg 3 10)) (fun t => t.reg 2 == 0xFB && t.reg vf == 0) = true ∧
    gives (ran 0x8235 ((m0.setReg 2 7).setReg 3 7)) (fun t => t.reg 2 == 0 && t.reg vf == 1) = true := by decide
theorem test_A29_sub_on_vf :
    ([VfWriteOrder.flagLast, .resultLast, .inPlace].map fun o =>
      gives (ran 0x8F15 (ordered o ((m0.setReg 1 0x05).setReg vf 0x03)))
        (·.reg vf == match o with | .flagLast => 0x00 | .resultLast => 0xFE | .inPlace => 0xFB)) =
      [true, true, true] := by decide
theorem test_A17_A18_subn :
    gives (ran 0x8127 ((m0.setReg 1 10).setReg 2 5)) (fun t => t.reg 1 == 0xFB && t.reg vf == 0) = true ∧
    gives (ran 0x8127 ((m0.setReg 1 5).setReg 2 10)) (fun t => t.reg 1 == 5 && t.reg vf == 1) = true := by decide
theorem test_A30_subn_on_vf :
    ([VfWriteOrder.flagLast, .resultLast, .inPlace].map fun o =>
      gives (ran 0x8F17 (ordered o ((m0.setReg 1 0x03).setReg vf 0x05)))
        (·.reg vf == match o with | .flagLast => 0x00 | .resultLast => 0xFE | .inPlace => 0x03)) =
      [true, true, true] := by decide
/-- A20 and A24. -/
theorem test_A20_A24_shr :
    gives (ran 0x8456 ((m1.setReg 4 0x81).setReg 5 3)) (fun t => t.reg 4 == 0x01 && t.reg vf == 1) = true ∧
    gives (ran 0x8456 ((m0.setReg 4 0x81).setReg 5 3)) (fun t => t.reg 4 == 0x40 && t.reg vf == 1) = true ∧
    gives (ran 0x8456 (m1.setReg 5 0x81)) (fun t => t.reg 4 == 0x40 && t.reg vf == 1 && t.reg 5 == 0x81) = true := by
  decide
/-- A31 (SUPER-CHIP) and A33 (legacy), each in its three orders. -/
theorem test_A31_A33_shr_on_vf :
    ([VfWriteOrder.flagLast, .resultLast, .inPlace].map fun o =>
      gives (ran 0x8F06 (ordered o (m0.setReg vf 0x81)))
        (·.reg vf == match o with | .flagLast => 0x01 | .resultLast => 0x40 | .inPlace => 0x00) &&
      gives (ran 0x8F56 (ordered o (m1.setReg 5 0x81)))
        (·.reg vf == match o with | .flagLast => 0x01 | .resultLast => 0x40 | .inPlace => 0x00)) =
      [true, true, true] := by decide
theorem test_A22_shl :
    gives (ran 0x845E ((m1.setReg 4 0x81).setReg 5 3)) (fun t => t.reg 4 == 0x06 && t.reg vf == 0) = true ∧
    gives (ran 0x845E ((m0.setReg 4 0x81).setReg 5 3)) (fun t => t.reg 4 == 0x02 && t.reg vf == 1) = true := by decide
theorem test_A32_shl_on_vf :
    ([VfWriteOrder.flagLast, .resultLast, .inPlace].map fun o =>
      gives (ran 0x8F0E (ordered o (m0.setReg vf 0x81)))
        (·.reg vf == match o with | .flagLast => 0x01 | .resultLast => 0x02 | .inPlace => 0x02)) =
      [true, true, true] := by decide
/-- A25. -/
theorem test_A25_rnd (h : Config.randByte 0 = 0xA7) : gives (exec (.rnd 3 0x0F) m0) (·.reg 3 == 0x07) = true := by
  simp [gives, exec, execRnd, m0, launched, State.setReg, State.reg, State.reset, State.drawn, h]
/-- A26. -/
theorem test_A26_rnd_mask_zero : gives (exec (.rnd 3 0x00) (m0.setReg 3 9)) (·.reg 3 == 0x00) = true := by
  simp [gives, exec, execRnd, State.setReg, State.reg, State.drawn]

/-! ## Index register, font, BCD and block transfer (2.5) -/

theorem test_X1_ld_i : gives (ran 0xA300 m0) (·.i == 0x300) = true := by decide
/-- X2 to X4. -/
theorem test_X2_X3_X4_add_i :
    gives (ran 0xF01E { m0.setReg 0 1 with i := 0xFFE }) (fun t => t.i == 0xFFF && t.reg vf == 0) = true ∧
    gives (ran 0xF01E { m0.setReg 0 1 with i := 0xFFF }) (fun t => t.i == 0x1000 && t.reg vf == 1) = true ∧
    gives (ran 0xF01E { m0.setReg 0 1 with i := 0xFFFF }) (fun t => t.i == 0 && t.reg vf == 1) = true := by decide
theorem test_X5_add_i_old_vf :
    gives (ran 0xFF1E { m0.setReg vf 5 with i := 0x100 }) (fun t => t.i == 0x105 && t.reg vf == 0) = true := by decide
theorem test_X7_ld_f_low_nibble : gives (ran 0xF029 (m0.setReg 0 0x3A)) (·.i == 100) = true := by decide
theorem test_X9_ld_f_last : gives (ran 0xF029 (m0.setReg 0 0x0F)) (·.i == 125) = true := by decide
theorem test_X10_ld_b :
    gives (ran 0xFA33 { m0.setReg 0xA 123 with i := 0x300 })
      (fun t => [0x300, 0x301, 0x302].map t.readByte == [1, 2, 3] && t.i == 0x300) = true := by decide
theorem test_X14_ld_b_past_end :
    gives (ran 0xF033 { m0.setReg 0 1 with i := 0xFFE })
      (fun t => haltedWith .dataOutOfRange 0x200 0x1000 t && t.i == 0xFFE) = true := by decide
theorem test_X15_store :
    gives (ran 0xF255 { ((m1.setReg 0 1).setReg 1 2).setReg 2 3 with i := 0x400 })
      (fun t => [0x400, 0x401, 0x402, 0x403].map t.readByte == [1, 2, 3, 0] && t.i == 0x403) = true := by decide
theorem test_X18_store_past_end :
    gives (ran 0xFF55 { m0 with i := 0xFF1 }) (haltedWith .dataOutOfRange 0x200 0x1000) = true := by decide
theorem test_X19_load :
    gives (ran 0xF265 { m0.setReg 3 9 with i := 0x300, mem := [(0x300, 1), (0x301, 2), (0x302, 3)] })
      (fun t => [0, 1, 2, 3].map t.reg == [1, 2, 3, 9] && t.i == 0x300) = true := by decide
theorem test_X21_load_past_end :
    gives (ran 0xF065 { m0 with i := 0x1000 }) (haltedWith .dataOutOfRange 0x200 0x1000) = true := by decide

/-! ## Timers and key wait (2.6) -/

/-- The next event of another agent is e. -/
def hears (e : Event) (s : State) : State := { s with env := [e] }

theorem test_T3_ld_vx_dt : gives (ran 0xF407 { m0 with dt := 9 }) (·.reg 4 == 9) = true := by decide
theorem test_T5_ld_dt_vx : gives (ran 0xF315 { m0.setReg 3 10 with dt := 4 }) (·.dt == 10) = true := by decide
theorem test_T6_ld_st_vx :
    gives (ran 0xF318 { m0.setReg 3 5 with dt := 2 }) (fun t => t.outputs.stValue == 5 && t.dt == 2) = true := by decide
theorem test_T7_timers_tick_separately :
    gives (step (hears .tickDelay { m0 with dt := 7, st := 7 })) (fun t => t.dt == 6 && t.st == 7) = true ∧
    gives (step (hears .tickDelay { m0 with dt := 0, st := 7 })) (·.dt == 0) = true := by decide
theorem test_T8_wait_then_answer :
    gives (ran 0xF50A m0) (fun t => t.status == .waitKey 5 && t.pc == 0x202 && t.outputs.keyWait) = true ∧
    gives (step (hears (.answerKey 0xC) { m0 with status := .waitKey 5, pc := 0x202 }))
      (fun t => t.reg 5 == 0x0C && t.status == .running && t.pc == 0x202) = true := by decide
theorem test_T9_timers_tick_during_wait :
    gives (step (hears .tickDelay { m0 with status := .waitKey 5, dt := 2 }))
      (fun t => t.dt == 1 && t.status == .waitKey 5) = true := by decide

/-! ## Display (2.7) -/

/-- Columns 0 to 7 of row r, column 0 first. -/
def firstColumns (f : Frame) (r : Nat) : List Bool := (List.range 8).map fun c => f.get c r

/-- The pixels of a sprite row, leftmost first. -/
def pixels (b : Byte) : List Bool := (List.range 8).map (spritePixel b)

/-- Sprite bytes at 0x300 and I there. -/
def sprite (bytes : List Byte) (s : State) : State :=
  { s with i := 0x300, mem := (s.writeBytes (fun _ => true) 0x300 0 bytes).mem }

/-- A screen whose row 0 starts with the pixels of b. -/
def screen (b : Byte) : Frame := (composeRow b 0 0 (Frame.blank, false)).1

/-- E4 and R200, the row that collides. -/
theorem test_DR1_draw_collides :
    gives (ran 0xD011 (sprite [0x02] { m0 with fb := screen 0b00000110 }))
      (fun t => firstColumns t.fb 0 == pixels 0b00000100 && t.reg vf == 1 && t.slot.isSome) = true := by decide
/-- DR2: the corner wraps. DR3: columns past 63 are clipped. -/
theorem test_DR2_DR3_draw_wraps_and_clips :
    gives (ran 0xD011 (sprite [0x80] ((m0.setReg 0 67).setReg 1 33)))
      (fun t => t.fb.get 3 1 && !t.fb.get 3 0 && t.reg vf == 0) = true ∧
    gives (ran 0xD011 (sprite [0xFF] (m0.setReg 0 62)))
      (fun t => t.fb.get 62 0 && t.fb.get 63 0 && firstColumns t.fb 0 == pixels 0 && firstColumns t.fb 1 == pixels 0) = true := by
  decide
/-- DR5: N = 0 reads no byte. -/
theorem test_DR5_draw_nothing :
    gives (ran 0xD010 { m0.setReg vf 1 with i := 0xFFFF })
      (fun t => t.reg vf == 0 && t.slot.isSome && t.status == .running) = true := by decide
/-- DR6: the clipped third row is read and faults. -/
theorem test_DR6_draw_past_end :
    gives (ran 0xD013 { m0.setReg 1 31 with i := 0xFFE })
      (fun t => haltedWith .dataOutOfRange 0x200 0x1000 t && t.slot == none) = true := by decide
/-- DR7: VF is read before it is reset. -/
theorem test_DR7_draw_reads_old_vf :
    gives (ran 0xDF11 (sprite [0x80] ((m0.setReg vf 5).setReg 1 2)))
      (fun t => t.fb.get 5 2 && t.reg vf == 0) = true := by decide
/-- DR8: the flag is sticky across rows. -/
theorem test_DR8_collision_is_sticky :
    gives (ran 0xD012 (sprite [0x80, 0x80] { m0 with fb := screen 0x80 }))
      (fun t => !t.fb.get 0 0 && t.fb.get 0 1 && t.reg vf == 1) = true := by decide
/-- DR9: CLS keeps VF and notifies. -/
theorem test_DR9_cls :
    gives (ran 0x00E0 { m0.setReg vf 7 with fb := screen 0xFF })
      (fun t => firstColumns t.fb 0 == pixels 0 && t.reg vf == 7 && (t.slot.map fun f => firstColumns f 0) == some (pixels 0)) = true := by decide
/-- DR10: CLS on a full slot waits, and the snapshot is placed once the slot is empty. -/
theorem test_DR10_cls_on_full_slot :
    (∃ t, exec .cls { m0 with slot := some (screen 1) } = .next t ∧ t.status = .notifyPending Frame.blank ∧
      t.slot = some (screen 1)) ∧
    ∃ t, step { m0 with status := .notifyPending Frame.blank } = .next t ∧ t.status = .running ∧
      t.slot = some Frame.blank := ⟨⟨_, rfl, rfl, rfl⟩, _, rfl, rfl, rfl⟩
/-- R228: disp_frame bit c * 32 + r is FB[c][r]. -/
theorem test_disp_frame_is_column_first :
    (Frame.blank.xorPixel 2 5 true).toBits.getLsbD (2 * 32 + 5) = true ∧
    (Frame.blank.xorPixel 2 5 true).toBits.getLsbD (5 * 64 + 2) = false := by
  simp only [Frame.toBits, BitVec.getLsbD_ofFnLE]; decide

/-! ## Witnesses: the hypotheses of each statement are met -/

/-- A small machine with something in every part, about to run FX55. -/
def busy : State :=
  { m0.setReg 1 7 with stack := [0x206], mem := [(0x200, 0xF1), (0x201, 0x55), (0x300, 1)], dt := 3, st := 4, fb := screen 0xC0,
                       slot := some (screen 1), i := 0x300 }

/-- Stopped by a return on an empty stack at 0x200. -/
def dead : State := { m0 with pc := 0x202, status := .halted, faultCause := .stackUnderflow, faultPc := 0x200 }

theorem busy_canonical : busy.MemoryCanonical := by unfold State.MemoryCanonical; decide

theorem witness_LaunchPlacesImageVerbatim :
    (List.replicate 3584 (0xFF : Byte)).length ≤ 3584 ∧ 3584 < (List.replicate 3585 (0xFF : Byte)).length := by
  simp only [List.length_replicate]; omega
theorem ready_m0 : m0.Ready := ⟨rfl, rfl, rfl⟩
theorem witness_StepRunsDecodedInstruction :
    m0.Ready ∧ m0.pc.toNat + 1 ≤ 4095 ∧
      decode (m0.readByte m0.pc.toNat ++ m0.readByte (m0.pc.toNat + 1)) = .sys 0x000 ∧
    State.Ready { m0 with pc := 0xFFE } ∧ ({ m0 with pc := 0xFFE } : State).pc.toNat + 1 ≤ 4095 :=
  ⟨ready_m0, by decide, by decide, ⟨rfl, rfl, rfl⟩, by decide⟩
theorem witness_FetchPastEndFaults :
    (State.Ready { m0 with pc := 0xFFF } ∧ 4095 ≤ (0xFFF : Half).toNat) ∧
    (State.Ready { m0 with pc := 0xFFFF } ∧ 4095 ≤ (0xFFFF : Half).toNat) ∧
    (State.Ready { m0 with pc := 0xFFE } ∧ (0xFFE : Half).toNat = 4094) :=
  ⟨⟨⟨rfl, rfl, rfl⟩, by decide⟩, ⟨⟨rfl, rfl, rfl⟩, by decide⟩, ⟨rfl, rfl, rfl⟩, by decide⟩
theorem witness_SuspendedEngineTakesNoStep :
    (State.reset.env = [] ∧ State.reset.loading = true) ∧
    (∃ s : State, s.env = [] ∧ ∃ x, s.status = .waitKey x) ∧ (dead.env = [] ∧ dead.status = .halted) ∧
    (∃ s : State, s.env = [] ∧ (∃ frame, s.status = .notifyPending frame) ∧ s.slot ≠ none) :=
  ⟨⟨rfl, rfl⟩, ⟨{ m0 with status := .waitKey 5 }, rfl, 5, rfl⟩, ⟨rfl, rfl⟩,
    { busy with status := .notifyPending Frame.blank }, rfl, ⟨Frame.blank, rfl⟩, by simp [busy]⟩
theorem witness_KeyAnswerResumesEngine :
    ∃ (s : State) (x key : Nibble) (rest : List Event), s.status = .waitKey x ∧ s.env = .answerKey key :: rest :=
  ⟨{ m0 with status := .waitKey 15, env := [.answerKey 0xF, .tickDelay] }, 15, 0xF, [.tickDelay], rfl, rfl⟩
theorem witness_PendingSnapshotIsPlaced :
    ∃ (s : State) (frame : Frame), s.env = [] ∧ s.loading = false ∧ s.status = .notifyPending frame ∧ s.slot = none :=
  ⟨{ m0 with status := .notifyPending Frame.blank }, Frame.blank, rfl, rfl, rfl, rfl⟩
theorem witness_TickDecrementsOneTimer :
    (hears .tickDelay busy).env = .tickDelay :: [] ∧ (hears .tickSound busy).env = .tickSound :: [] := ⟨rfl, rfl⟩
theorem witness_TimerReachesZeroAfterItsTicks :
    (∃ s : State, s.env = List.replicate 3 .tickDelay ++ [.run] ∧ s.dt.toNat ≤ 3 ∧ s.dt = 3) ∧
    (∃ s : State, s.env = List.replicate 5 .tickSound ++ [] ∧ s.st.toNat ≤ 5 ∧ s.st = 4) :=
  ⟨⟨{ busy with env := [.tickDelay, .tickDelay, .tickDelay, .run] }, rfl, by decide, rfl⟩,
    { busy with env := List.replicate 5 .tickSound }, rfl, by decide, rfl⟩
theorem witness_InitRestoresResetState :
    (hears .init busy).env = .init :: [] ∧ (hears .init dead).env = .init :: [] := ⟨rfl, rfl⟩
theorem witness_HostEventsDoOnlyTheirEffect :
    (hears .takeFrame busy).env = .takeFrame :: [] ∧ (hears .run State.reset).env = .run :: [] ∧
    ((hears (.loadByte 0xFFF 1) m0).env = .loadByte 0xFFF 1 :: [] ∧ (hears (.loadByte 0xFFF 1) m0).loading = false) ∧
    ((hears (.loadByte 0x000 1) State.reset).env = .loadByte 0x000 1 :: [] ∧
      (hears (.loadByte 0x000 1) State.reset).loading = true ∧
      (hears (.loadByte 0x000 1) State.reset).MemoryCanonical) :=
  ⟨rfl, rfl, ⟨rfl, rfl⟩, rfl, rfl, List.Pairwise.nil, by simp [hears, State.reset]⟩
theorem witness_OutputsShowTheState :
    ∃ (s : State) (frame : Frame) (bits : BitVec 2048), s.slot = some frame ∧ s.outputs.dispFrame = some bits :=
  ⟨busy, screen 1, (screen 1).toBits, rfl, rfl⟩
theorem witness_DecodeInvertsEncode :
    (Instr.sys 0xFFF).wellFormed = true ∧ (Instr.nopE 0xF 0xFF).wellFormed = true ∧
    (Instr.nopF 0 0).wellFormed = true ∧ Instr.cls.wellFormed = true := by decide
theorem witness_NoOpsOnlyAdvancePc :
    m0.Ready ∧ m0.pc.toNat + 1 ≤ 4095 ∧ NoOpWord (m0.readByte m0.pc.toNat ++ m0.readByte (m0.pc.toNat + 1)) :=
  ⟨ready_m0, by decide, .inl (by decide)⟩
/-- The decode clauses: a word of each family and second key that a statement names. -/
theorem witness_decode_clauses :
    ([0x1ABC, 0x2210, 0x3205, 0x4205, 0x5121, 0x6A7B, 0x7001, 0x9120, 0xA205, 0xB300, 0xC30F, 0xD125].map fieldF =
      [0x1, 0x2, 0x3, 0x4, 0x5, 0x6, 0x7, 0x9, 0xA, 0xB, 0xC, 0xD]) ∧
    ([0x8120, 0x8121, 0x8122, 0x8123, 0x8124, 0x8125, 0x8126, 0x8127, 0x812E].map (fun w => (fieldF w, fieldN w)) =
      [(0x8, 0x0), (0x8, 0x1), (0x8, 0x2), (0x8, 0x3), (0x8, 0x4), (0x8, 0x5), (0x8, 0x6), (0x8, 0x7), (0x8, 0xE)]) ∧
    ([0xE39E, 0xE3A1, 0xF407, 0xF50A, 0xF315, 0xF318, 0xFF1E, 0xF029, 0xFA33, 0xF255, 0xF265].map
        (fun w => (fieldF w, fieldNN w)) =
      [(0xE, 0x9E), (0xE, 0xA1), (0xF, 0x07), (0xF, 0x0A), (0xF, 0x15), (0xF, 0x18), (0xF, 0x1E), (0xF, 0x29),
        (0xF, 0x33), (0xF, 0x55), (0xF, 0x65)]) := by decide
theorem witness_CallPushesReturnAddress :
    (∃ s : State, s.cfg.stackDepth = .unbounded) ∧
    (∃ (s : State) (depth : Nat), s.cfg.stackDepth = .finite depth ∧ s.stack.length < depth ∧ depth = s.stack.length + 1) ∧
    (∃ (s : State) (depth : Nat), s.cfg.stackDepth = .finite depth ∧ depth ≤ s.stack.length) :=
  ⟨⟨busy, rfl⟩, ⟨{ busy with cfg := { params false with stackDepth := .finite 2 } }, 2, rfl, by decide, rfl⟩,
    { busy with cfg := { params false with stackDepth := .finite 1 } }, 1, rfl, by decide⟩
theorem witness_ReturnPopsIntoPc : busy.stack = 0x206 :: [] ∧ m0.stack = [] := ⟨rfl, rfl⟩
theorem witness_RegisterLoadAndLogicAndTheirFlag :
    m0.cfg.logicResetsVf = false ∧
    ∃ s : State, s.cfg.logicResetsVf = true := ⟨rfl, { m0 with cfg := { params false with logicResetsVf := true } }, rfl⟩
theorem witness_ShiftsFollowTheQuirk :
    (0x03 : Byte) = (if m1.cfg.quirkLegacy then (m1.setReg 5 3).reg 5 else (m1.setReg 5 3).reg 4) ∧
    (0x81 : Byte) = (if m0.cfg.quirkLegacy then (m0.setReg 4 0x81).reg 5 else (m0.setReg 4 0x81).reg 4) := by decide
/-- The clauses of FlaggedWrite and ShiftWrite: X and Y at and off VF, under each order. -/
theorem witness_FlaggedWrite_clauses :
    (1 : Nibble) ≠ vf ∧ (15 : Nibble) = vf ∧ m0.cfg.vfWriteOrder = .flagLast ∧
    (ordered .resultLast m0).cfg.vfWriteOrder = .resultLast ∧ (ordered .inPlace m0).cfg.vfWriteOrder = .inPlace :=
  ⟨by decide, rfl, rfl, rfl, rfl⟩
theorem witness_DecimalDigitsAreStored :
    (busy.MemoryCanonical ∧ busy.i.toNat + 2 < 4096) ∧ (0xFFD : Half).toNat + 2 < 4096 :=
  ⟨⟨busy_canonical, by decide⟩, by decide⟩
theorem witness_BlockStoreWritesRegisters :
    (busy.MemoryCanonical ∧ busy.i.toNat + (0xF : Nibble).toNat < 4096) ∧
    (0xFF0 : Half).toNat + (0xF : Nibble).toNat < 4096 := ⟨⟨busy_canonical, by decide⟩, by decide⟩
theorem witness_BlockLoadReadsRegisters :
    busy.i.toNat + (2 : Nibble).toNat < 4096 ∧ (0xFFF : Half).toNat + (0 : Nibble).toNat < 4096 := by decide
theorem witness_StoresPastEndHalt :
    ∃ s : State, s.MemoryCanonical ∧ 4096 ≤ s.i.toNat + 2 ∧ 4096 ≤ s.i.toNat + (2 : Nibble).toNat ∧ s.i = 0xFFE :=
  ⟨{ busy with i := 0xFFE }, busy_canonical, by decide, by decide, rfl⟩
theorem witness_LoadPastEndHalts :
    4096 ≤ (0xFFF : Half).toNat + (1 : Nibble).toNat ∧ 4096 ≤ (0x1000 : Half).toNat + (0 : Nibble).toNat ∧
    4096 ≤ (0xFFFF : Half).toNat + (0xF : Nibble).toNat := by decide
theorem witness_DrawXorsSpriteAndNotifies :
    (busy.i.toNat + (5 : Nibble).toNat ≤ 4096 ∧ (0xFFF : Half).toNat + (1 : Nibble).toNat ≤ 4096) ∧
    (∃ c r, c < 64 ∧ r < 32 ∧ busy.spriteAt 2 0 0 c r = false ∧ Frame.get busy.fb c r = true) ∧
    (∃ c r, c < 64 ∧ r < 32 ∧ ({ busy with fb := screen 0x03 } : State).spriteAt 2 0 0 c r = true ∧
      Frame.get ({ busy with fb := screen 0x03 } : State).fb c r = true) ∧
    (¬ ∃ c r, c < 64 ∧ r < 32 ∧ busy.spriteAt 0 0 0 c r = true ∧ Frame.get busy.fb c r = true) :=
  ⟨by decide, ⟨0, 0, by decide⟩, ⟨7, 0, by decide⟩, fun ⟨_, _, _, _, h, _⟩ => by
    simp [State.spriteAt] at h⟩
theorem witness_Notified_clauses : m0.slot = none ∧ busy.slot ≠ none := ⟨rfl, by simp [busy]⟩
theorem witness_DrawPastEndHalts :
    (3 : Nibble) ≠ 0 ∧ 4096 < (0xFFE : Half).toNat + (3 : Nibble).toNat ∧
    4096 < (0x1000 : Half).toNat + (1 : Nibble).toNat := by decide
theorem witness_RowCompositionExamples :
    (0 + 8 ≤ 64 ∧ 0 < 32 ∧ ∀ k, k < 8 → Frame.get (screen 0b00000110) (0 + k) 0 = spritePixel 0b00000110 k) ∧
    (56 + 8 ≤ 64 ∧ 31 < 32 ∧ ∀ k, k < 8 → Frame.get Frame.blank (56 + k) 31 = spritePixel 0b00000000 k) := by decide
/-- Shortly before a jump past 0xFFF. -/
def jumping : State := { busy with mem := [(0x200, 0xBF), (0x201, 0xFF)] }
/-- A step of the kind each invariant has to survive, from a state that meets the invariant. -/
theorem witness_StepKeepsMemoryCanonical :
    busy.MemoryCanonical ∧ decode busy.fetchWord = .storeRegs 1 ∧ ∃ t, step busy = .next t :=
  ⟨busy_canonical, by decide, step_answers (by decide)⟩
theorem witness_StepKeepsPcInRange :
    jumping.PcInRange ∧ decode jumping.fetchWord = .jpV0 0xFFF ∧ ∃ t, step jumping = .next t :=
  ⟨⟨by decide, by simp [jumping, busy]⟩, by decide, step_answers (by decide)⟩
/-- A finite stack of one entry, full. -/
def full : State := { busy with mem := [(0x200, 0x23)], cfg := { params false with stackDepth := .finite 1 } }
theorem witness_StepKeepsStackWithinDepth :
    full.StackWithinDepth ∧ decode full.fetchWord = .call 0x300 ∧ ∃ t, step full = .next t :=
  ⟨fun depth h => by cases h; exact le_refl 1, by decide, step_answers (by decide)⟩
/-- Stopped by a block transfer from 0xFFE past the end, at 0x200. -/
def pastEnd : State :=
  { m0 with i := 0xFFE, pc := 0x202, status := .halted, faultCause := .dataOutOfRange, faultPc := 0x200,
            faultInfo := 0x1000 }
/-- Shortly before a return on an empty stack. -/
def dying : State := { m0 with mem := [(0x201, 0xEE)] }
theorem witness_StepKeepsFaultRecordSound :
    (dying.FaultRecordSound ∧ decode dying.fetchWord = .ret ∧ ∃ t, step dying = .next t) ∧
    (dead.FaultRecordSound ∧ ∃ t, step dead = .next t) ∧ (pastEnd.FaultRecordSound ∧ ∃ t, step pastEnd = .next t) :=
  ⟨⟨by unfold State.FaultRecordSound; decide, by decide, step_answers (by decide)⟩,
    ⟨by unfold State.FaultRecordSound; decide, step_answers (by decide)⟩,
    by unfold State.FaultRecordSound; decide, step_answers (by decide)⟩
theorem witness_StepKeepsPendingSnapshot :
    ∃ s t, State.PendingIsFramebuffer s ∧ step s = .next t ∧ s.status = .notifyPending s.fb :=
  ⟨{ busy with status := .notifyPending busy.fb }, _, fun frame h => by cases h; rfl, rfl, rfl⟩
theorem witness_StepKeepsLoadPhaseUntouched :
    State.LoadPhaseUntouched (hears (.loadByte 0x200 1) State.reset) ∧
    ∃ t, step (hears (.loadByte 0x200 1) State.reset) = .next t :=
  ⟨fun _ => ⟨rfl, rfl, rfl, rfl, rfl, rfl, rfl, by decide, rfl, rfl, rfl, rfl⟩, _, rfl⟩
theorem witness_OnlyInitLeavesHalted :
    dead.status = .halted ∧ dead.loading = false ∧ ¬ dead.EventIsNext .init ∧ ∃ t, step dead = .next t :=
  ⟨rfl, rfl, by simp [State.EventIsNext, dead, m0, launched, State.reset], _, rfl⟩
theorem witness_FramebufferChangedOnlyByClearAndDraw :
    ((∃ t, exec (.ldByte 0 1) busy = .next t) ∧ ¬ changesFramebuffer (.ldByte 0 1)) ∧
    (∃ t, step (hears .tickDelay busy) = .next t) ∧ ¬ (hears .tickDelay busy).EventIsNext .init ∧
    ¬ ((hears .tickDelay busy).Ready ∧ changesFramebuffer (decode (hears .tickDelay busy).fetchWord)) :=
  ⟨⟨⟨_, rfl⟩, by simp [changesFramebuffer]⟩, ⟨_, rfl⟩, by simp [State.EventIsNext, hears],
    by simp [State.Ready, hears]⟩
theorem witness_TimersFallUnlessWritten :
    (∃ t, step (hears .tickDelay busy) = .next t) ∧
    ¬ ((hears .tickDelay busy).Ready ∧ ∃ x, decode (hears .tickDelay busy).fetchWord = .ldDtVx x) ∧
    ¬ ((hears .tickDelay busy).Ready ∧ ∃ x, decode (hears .tickDelay busy).fetchWord = .ldStVx x) :=
  ⟨⟨_, rfl⟩, by simp [State.Ready, hears], by simp [State.Ready, hears]⟩
theorem witness_ParametersNeverChange : ∃ t, step (hears .init busy) = .next t := ⟨_, rfl⟩
theorem witness_MemoryChangedOnlyByStores :
    ((∃ t, exec (.loadRegs 1) busy = .next t) ∧ ¬ storesToMemory (.loadRegs 1)) ∧
    (∃ t, step (hears (.loadByte 0x300 9) busy) = .next t) ∧ ¬ (hears (.loadByte 0x300 9) busy).EventIsNext .init ∧
    (hears (.loadByte 0x300 9) busy).loading ≠ true ∧ ¬ (hears (.loadByte 0x300 9) busy).Ready :=
  ⟨⟨⟨_, rfl⟩, by simp [storesToMemory]⟩, ⟨_, rfl⟩, by simp [State.EventIsNext, hears],
    by simp [hears, busy, m0, launched], by simp [State.Ready, hears]⟩
theorem witness_InstructionsWriteOnlyTheirRegisters :
    (∃ t, exec (.drw 0 1 1) busy = .next t) ∧ ¬ writesIndex busy.cfg (.drw 0 1 1) ∧ Instr.drw 0 1 1 ≠ .ret ∧
    ∀ nnn, Instr.drw 0 1 1 ≠ .call nnn := ⟨⟨_, rfl⟩, by simp [writesIndex], by simp, by simp⟩
theorem witness_StatusChangesOnlyWhereTheRulesSay :
    (∃ t, exec (.ldVxK 5) busy = .next t ∧ t.status = .waitKey 5) ∧
    (∃ t, exec .cls busy = .next t ∧ t.status = .notifyPending t.fb) ∧
    (∃ t, exec .ret m0 = .next t ∧ t.status = .halted) := ⟨⟨_, rfl, rfl⟩, ⟨_, rfl, rfl⟩, _, rfl, rfl⟩
theorem witness_SlotKeepsItsSnapshotUntilTaken :
    (busy.slot = some (screen 1) ∧ ¬ busy.EventIsNext .takeFrame ∧ ¬ busy.EventIsNext .init ∧ ∃ t, step busy = .next t) ∧
    (m0.slot = none ∧ ∃ t, step (m0.withFetchWord 16 0x00E0) = .next t ∧ t.slot ≠ none) :=
  ⟨⟨rfl, by simp [State.EventIsNext, busy, m0, launched, State.reset],
    by simp [State.EventIsNext, busy, m0, launched, State.reset], _, rfl⟩, rfl, _, rfl, by decide⟩
theorem witness_StoreIsSeenByTheNextFetch :
    ∃ (s t : State) (x hi lo : Nibble), s.MemoryCanonical ∧ exec (.storeRegs x) s = .next t ∧
      s.i.toNat + x.toNat < 4096 ∧ s.pc.toNat = s.i.toNat + hi.toNat ∧ lo.toNat = hi.toNat + 1 ∧ lo.toNat ≤ x.toNat :=
  ⟨{ busy with pc := 0x301 }, _, 2, 1, 2, busy_canonical, rfl, by decide, by decide, by decide, by decide⟩

end Sys2Proof.Tests
end

section
/-! PROOFS. The frame of every instruction, said once: the fields its row may write (spec/10_state.md R21, R22, R25, R26,
R28, R30, R39), every other field being as before. -/

namespace Sys2Proof.Machine

/-- s with the status and the fault record of t. -/
def State.withRecordOf (s t : State) : State :=
  { s with status := t.status, faultCause := t.faultCause, faultPc := t.faultPc, faultInfo := t.faultInfo }

/-- s with the fields taken from t that the instruction may write, in a faulting execution too. -/
def State.framedBy (s t : State) : Instr → State
  | .cls => { s with fb := t.fb, slot := t.slot, status := t.status }
  | .drw _ _ _ => { s.withRecordOf t with v := t.v, fb := t.fb, slot := t.slot, draws := t.draws }
  | .ret | .call _ => { s.withRecordOf t with pc := t.pc, stack := t.stack }
  | .jp _ | .jpV0 _ | .seByte _ _ | .sneByte _ _ | .seReg _ _ _ | .sneReg _ _ _ => { s with pc := t.pc }
  | .skp _ | .sknp _ => { s with pc := t.pc, draws := t.draws }
  | .sys _ | .nop88 _ _ | .nop89 _ _ | .nop8A _ _ | .nop8B _ _ | .nop8C _ _ | .nop8D _ _ | .nop8F _ _ | .nopE _ _
  | .nopF _ _ => s
  | .ldByte _ _ | .addByte _ _ | .ldReg _ _ | .orReg _ _ | .andReg _ _ | .xorReg _ _ | .addReg _ _ | .subReg _ _
  | .shrReg _ _ | .subnReg _ _ | .shlReg _ _ | .ldVxDt _ => { s with v := t.v }
  | .rnd _ _ => { s with v := t.v, draws := t.draws }
  | .ldI _ | .ldF _ => { s with i := t.i }
  | .addI _ => { s with i := t.i, v := t.v }
  | .ldB _ => { s.withRecordOf t with mem := t.mem, draws := t.draws }
  | .storeRegs _ =>
    { s.withRecordOf t with
      mem := t.mem, i := if s.cfg.storeLoadIncrementsI then t.i else s.i, draws := t.draws }
  | .loadRegs _ =>
    { s.withRecordOf t with
      v := t.v, i := if s.cfg.storeLoadIncrementsI then t.i else s.i, draws := t.draws }
  | .ldVxK _ => { s with status := t.status }
  | .ldDtVx _ => { s with dt := t.dt }
  | .ldStVx _ => { s with st := t.st }

/-- A logical operation writes V[X], and VF where LOGIC_RESETS_VF (R135). -/
theorem onlyRegs_writeLogic (s : State) (x y : Nibble) (op : Byte → Byte → Byte) :
    OnlyRegs (if s.cfg.logicResetsVf then [x, vf] else [x]) s (s.writeLogic x y op) := by
  unfold State.writeLogic
  split
  · exact (flaggedWrite_writeFlagged s x y op false).1
  · exact onlyRegs_setReg s x _

/-- What a data fault writes (R214). -/
theorem State.raiseData_eq (s : State) (bad : Nat) :
    s.raiseData bad = { s with status := .halted, faultCause := .dataOutOfRange, faultPc := s.pc - 2,
                               faultInfo := BitVec.ofNat 16 bad, draws := s.draws + 1 } := rfl

/-- No instruction changes a field outside its frame. -/
theorem exec_frame {i : Instr} {s t : State} (h : exec i s = .next t) : t = s.framedBy t i := by
  cases i <;> simp only [exec] at h
  case cls => cases h; unfold State.notify; split <;> rfl
  case ret => unfold execRet at h; split at h <;> cases h <;> rfl
  case call => unfold execCall at h; split at h <;> cases h <;> rfl
  case orReg | andReg | xorReg => cases h; exact (onlyRegs_writeLogic s _ _ _).1
  case addReg | subReg | subnReg => cases h; exact (flaggedWrite_writeFlagged s _ _ _ _).1.1
  case shrReg x y => cases h; exact (shiftWrite_writeFlagged s x y shiftedRight lowBit).1.1
  case shlReg x y => cases h; exact (shiftWrite_writeFlagged s x y shiftedLeft highBit).1.1
  case drw =>
    simp only [execDrw] at h
    split at h <;> cases h
    · unfold State.notify; split <;> rfl
    · rfl
  case ldB x =>
    cases h
    rcases State.storeFromIndex_cases s (decimalDigits (s.reg x)) id with h | ⟨bad, h⟩
    · rw [h, id_eq, State.writeBytes_eq]; rfl
    · rw [h, State.writeBytes_eq]; rfl
  case storeRegs x =>
    cases h
    rcases State.storeFromIndex_cases s (s.regsTo x) fun t => { t with i := s.indexAfterBlock x } with h | ⟨bad, h⟩ <;>
      rw [h, State.writeBytes_eq]
    · by_cases hc : s.cfg.storeLoadIncrementsI <;>
        simp [State.framedBy, State.withRecordOf, State.indexAfterBlock, hc]
    · simp [State.framedBy, State.withRecordOf, State.raiseData_eq]
  case loadRegs x =>
    unfold execLoadRegs at h
    split at h <;> cases h <;> rw [State.loadBytes_eq]
    · by_cases hc : s.cfg.storeLoadIncrementsI <;>
        simp [State.framedBy, State.withRecordOf, State.indexAfterBlock, hc]
    · simp [State.framedBy, State.withRecordOf, State.raiseData_eq]
  all_goals cases h; rfl

/-! ## What the frame says of one field -/

/-- Only 00E0 and DXYN change the framebuffer (R30). -/
theorem exec_keeps_fb {i : Instr} {s t : State} (h : exec i s = .next t) (hi : ¬ changesFramebuffer i) :
    t.fb = s.fb := by
  have hf := congrArg State.fb (exec_frame h)
  cases i
  case cls => exact absurd (.inl rfl) hi
  case drw x y n => exact absurd (.inr ⟨x, y, n, rfl⟩) hi
  all_goals exact hf

/-- Only FX15 writes DT (R28, R181). -/
theorem exec_keeps_dt {i : Instr} {s t : State} (h : exec i s = .next t) (hi : ¬ ∃ x, i = .ldDtVx x) :
    t.dt = s.dt := by
  have hf := congrArg State.dt (exec_frame h)
  cases i
  case ldDtVx x => exact absurd ⟨x, rfl⟩ hi
  all_goals exact hf

/-- Only FX18 writes ST (R28, R182). -/
theorem exec_keeps_st {i : Instr} {s t : State} (h : exec i s = .next t) (hi : ¬ ∃ x, i = .ldStVx x) :
    t.st = s.st := by
  have hf := congrArg State.st (exec_frame h)
  cases i
  case ldStVx x => exact absurd ⟨x, rfl⟩ hi
  all_goals exact hf

/-- Only the instructions of R25 write I. -/
theorem exec_keeps_i {i : Instr} {s t : State} (h : exec i s = .next t) (hi : ¬ writesIndex s.cfg i) : t.i = s.i := by
  have hf := congrArg State.i (exec_frame h)
  cases i
  case ldI nnn => exact absurd (.inl ⟨nnn, rfl⟩) hi
  case addI x => exact absurd (.inr (.inl ⟨x, .inl rfl⟩)) hi
  case ldF x => exact absurd (.inr (.inl ⟨x, .inr rfl⟩)) hi
  case storeRegs x => exact hf.trans (if_neg fun hc => hi (.inr (.inr ⟨hc, x, .inl rfl⟩)))
  case loadRegs x => exact hf.trans (if_neg fun hc => hi (.inr (.inr ⟨hc, x, .inr rfl⟩)))
  all_goals exact hf

/-- Only 2NNN and 00EE write the stack (R26). -/
theorem exec_keeps_stack {i : Instr} {s t : State} (h : exec i s = .next t) (hret : i ≠ .ret)
    (hcall : ∀ nnn, i ≠ .call nnn) : t.stack = s.stack := by
  have hf := congrArg State.stack (exec_frame h)
  cases i
  case ret => exact absurd rfl hret
  case call nnn => exact absurd rfl (hcall nnn)
  all_goals exact hf

/-! ## Registers -/

/-- The registers of a block load are V[0] to V[X] (R165). -/
theorem mem_writtenRegs_loadRegs {cfg : Params} {x r : Nibble} :
    r ∈ writtenRegs cfg (.loadRegs x) ↔ r.toNat < blockLength x := by
  simp only [writtenRegs, blockLength, List.mem_map, List.mem_range]
  constructor
  · rintro ⟨k, hk, rfl⟩
    simp only [BitVec.toNat_ofNat]
    omega
  · exact fun hr => ⟨r.toNat, hr, by simp⟩

/-- A block load leaves every register above V[X] alone. -/
theorem sameRegsBut_loadBytes (lands : Nat → Bool) (cfg : Params) (x : Nibble) (s : State) :
    SameRegsBut (writtenRegs cfg (.loadRegs x)) s (s.loadBytes lands s.i.toNat (blockLength x)) := by
  intro r hr
  rw [mem_writtenRegs_loadRegs] at hr
  have hn : blockLength x ≤ 16 := x.isLt
  rw [State.reg_loadBytes lands s.i.toNat hn, if_neg fun hc => hr hc.1]

/-- A write to V[x] of a state with the registers of s leaves the others as in s. -/
theorem sameRegsBut_setReg {s u : State} (hv : u.v = s.v) (x : Nibble) (b : Byte) :
    SameRegsBut [x] s (u.setReg x b) :=
  fun r hr => ((onlyRegs_setReg u x b).2.1 r hr).trans (State.reg_congr hv r)

/-- An instruction writes no register outside its row's list, in a faulting execution neither (R21, R22). -/
theorem exec_sameRegsBut {i : Instr} {s t : State} (h : exec i s = .next t) :
    SameRegsBut (writtenRegs s.cfg i) s t := by
  have hv := congrArg State.v (exec_frame h)
  cases i
  case ldByte | addByte | ldReg | rnd | ldVxDt | addI => cases h; exact sameRegsBut_setReg rfl _ _
  case orReg | andReg | xorReg => cases h; exact (onlyRegs_writeLogic s _ _ _).2.1
  case addReg | subReg | subnReg => cases h; exact (flaggedWrite_writeFlagged s _ _ _ _).1.2.1
  case shrReg x y => cases h; exact (shiftWrite_writeFlagged s x y shiftedRight lowBit).1.2.1
  case shlReg x y => cases h; exact (shiftWrite_writeFlagged s x y shiftedLeft highBit).1.2.1
  case drw =>
    simp only [exec, execDrw] at h
    split at h <;> cases h <;> intro r hr
    · rw [State.reg_notify]; exact sameRegsBut_setReg (s := s) (by rfl) vf _ r hr
    · rw [State.reg_raiseData]; exact sameRegsBut_setReg (s := s) (by rfl) vf _ r hr
  case loadRegs x =>
    simp only [exec, execLoadRegs] at h
    split at h <;> cases h <;> exact sameRegsBut_loadBytes _ s.cfg x s
  all_goals exact fun r _ => State.reg_congr hv r

/-! ## PC and the stack -/

theorem addrOperand_toNat (nnn : Addr) : (addrOperand nnn).toNat = nnn.toNat := by
  have := nnn.isLt
  simp only [addrOperand, BitVec.toNat_setWidth]
  omega

/-- The largest target of BNNN is 4095 + 255 (R24, R121). -/
theorem State.jumpTarget_toNat_le (s : State) (nnn : Addr) : (s.jumpTarget nnn).toNat ≤ 0x10FE := by
  have := nnn.isLt
  have := (s.reg 0).isLt
  simp only [State.jumpTarget, byteOperand, BitVec.toNat_add, addrOperand_toNat, BitVec.toNat_setWidth]
  omega

/-- Everything an instruction can do to PC and the stack: the stack stays and PC stays, skips or jumps; a return pops
its target; a call with room pushes PC and jumps below 4096. -/
theorem exec_pc_cases {i : Instr} {s t : State} (h : exec i s = .next t) :
    (t.stack = s.stack ∧ (t.pc = s.pc ∨ t.pc = s.pc + 2 ∨ t.pc.toNat ≤ 0x10FE)) ∨
    s.stack = t.pc :: t.stack ∨
    (s.stackFull = false ∧ t.stack = s.pc :: s.stack ∧ t.pc.toNat < 4096) := by
  have hstack := congrArg State.stack (exec_frame h)
  have hpc := congrArg State.pc (exec_frame h)
  have skip : ∀ b : Bool, (if b then s.pc + 2 else s.pc) = s.pc ∨ (if b then s.pc + 2 else s.pc) = s.pc + 2 := by
    intro b; cases b <;> simp
  cases i
  case ret =>
    simp only [exec, execRet] at h
    split at h <;> cases h
    · exact .inl ⟨rfl, .inl rfl⟩
    · next hs => exact .inr (.inl hs)
  case call nnn =>
    simp only [exec, execCall] at h
    split at h <;> cases h
    · exact .inl ⟨rfl, .inl rfl⟩
    · next hfull => exact .inr (.inr ⟨by simpa using hfull, rfl, addrOperand_toNat nnn ▸ nnn.isLt⟩)
  case jp nnn =>
    cases h
    have := nnn.isLt
    exact .inl ⟨rfl, .inr (.inr (by simp only [addrOperand_toNat]; omega))⟩
  case jpV0 nnn => cases h; exact .inl ⟨rfl, .inr (.inr (s.jumpTarget_toNat_le nnn))⟩
  case seByte | sneByte | seReg | sneReg | skp | sknp =>
    cases h; exact .inl ⟨rfl, (skip _).imp_right .inl⟩
  all_goals exact .inl ⟨hstack, .inl hpc⟩

/-! ## A step of the whole machine, sorted by who moves

Init, an instruction, or anything else, which leaves PC, I, the stack, the framebuffer and the parameters alone
(spec/60_exceptions.md R221, R228). -/

/-! ## Events of other agents -/

/-- A key answer changes a register and the status (R184). -/
theorem State.answerKey_eq (s : State) (key : Nibble) :
    s.answerKey key = { s with v := (s.answerKey key).v, status := (s.answerKey key).status } := by
  unfold State.answerKey; cases s.status <;> rfl

/-- A load write changes memory (R241). -/
theorem State.loadByte_eq (s : State) (addr : Addr) (data : Byte) :
    s.loadByte addr data = { s with mem := (s.loadByte addr data).mem } := by
  unfold State.loadByte; split <;> rfl

/-- No event but init changes a field outside these: the key answer's register and status, the timers, the slot, memory
before run, and the load phase (R184, R220, R225, R228, R241). -/
theorem State.applyEvent_eq (s : State) {e : Event} (he : e ≠ .init) :
    s.applyEvent e = { s with v := (s.applyEvent e).v, dt := (s.applyEvent e).dt, st := (s.applyEvent e).st,
                              mem := (s.applyEvent e).mem, status := (s.applyEvent e).status,
                              slot := (s.applyEvent e).slot, loading := (s.applyEvent e).loading } := by
  cases e with
  | tickDelay | tickSound | takeFrame | run => rfl
  | answerKey key => rw [State.applyEvent, State.answerKey_eq]
  | init => exact absurd rfl he
  | loadByte addr data => rw [State.applyEvent, State.loadByte_eq]

/-- A key answer neither halts the engine nor wakes a halted one (R184, R217). -/
theorem State.answerKey_halted (s : State) (key : Nibble) :
    (s.answerKey key).status = .halted ↔ s.status = .halted := by
  unfold State.answerKey; cases hs : s.status <;> simp [hs]

/-- No event makes a timer rise: a tick lowers it, init clears it (R220, R240). -/
theorem State.applyEvent_timers_le (s : State) (e : Event) :
    (s.applyEvent e).dt.toNat ≤ s.dt.toNat ∧ (s.applyEvent e).st.toNat ≤ s.st.toNat := by
  cases e with
  | tickDelay => exact ⟨by simp [State.applyEvent, tick_toNat], le_rfl⟩
  | tickSound => exact ⟨le_rfl, by simp [State.applyEvent, tick_toNat]⟩
  | takeFrame | run => exact ⟨le_rfl, le_rfl⟩
  | answerKey key => rw [State.applyEvent, State.answerKey_eq]; exact ⟨le_rfl, le_rfl⟩
  | init => exact ⟨Nat.zero_le _, Nat.zero_le _⟩
  | loadByte addr data => rw [State.applyEvent, State.loadByte_eq]; exact ⟨le_rfl, le_rfl⟩

/-- No event but init halts the engine or ends a halt (R217, R232). -/
theorem State.applyEvent_halted (s : State) {e : Event} (he : e ≠ .init) :
    (s.applyEvent e).status = .halted ↔ s.status = .halted := by
  cases e with
  | tickDelay | tickSound | takeFrame | run => exact Iff.rfl
  | answerKey key => exact s.answerKey_halted key
  | init => exact absurd rfl he
  | loadByte addr data => rw [State.applyEvent, State.loadByte_eq]

/-! ## Steps -/

/-- What a step that is neither init nor an instruction keeps. -/
structure QuietStep (s t : State) : Prop where
  pc : t.pc = s.pc
  i : t.i = s.i
  stack : t.stack = s.stack
  fb : t.fb = s.fb
  cfg : t.cfg = s.cfg
  dt_le : t.dt.toNat ≤ s.dt.toNat
  st_le : t.st.toNat ≤ s.st.toNat

theorem quietStep_applyEvent (s : State) {e : Event} (he : e ≠ .init) : QuietStep s (s.applyEvent e) where
  pc := by rw [s.applyEvent_eq he]
  i := by rw [s.applyEvent_eq he]
  stack := by rw [s.applyEvent_eq he]
  fb := by rw [s.applyEvent_eq he]
  cfg := by rw [s.applyEvent_eq he]
  dt_le := (s.applyEvent_timers_le e).1
  st_le := (s.applyEvent_timers_le e).2

/-- A step is init, an instruction of a ready machine with the end of the engine's turn, or quiet. -/
theorem step_writer_cases {s t : State} (h : step s = .next t) :
    (s.EventIsNext .init ∧ ∃ u : State, u.cfg = s.cfg ∧ t = u.reinit) ∨
    (s.Ready ∧ s.pc.toNat ≤ 4094 ∧ ∃ u, exec (decode s.fetchWord) s.advance = .next u ∧ t = u.environmentNext) ∨
    QuietStep s t := by
  rcases step_cases h with ⟨e, rest, henv, rfl⟩ | ⟨henv, u, hu, rfl⟩
  · by_cases he : e = .init
    · subst he
      exact .inl ⟨by rw [State.EventIsNext, henv]; rfl, { s with env := rest }, rfl, rfl⟩
    · obtain ⟨hpc, hi, hstack, hfb, hcfg, hdt, hst⟩ := quietStep_applyEvent { s with env := rest } he
      exact .inr (.inr ⟨hpc, hi, hstack, hfb, hcfg, hdt, hst⟩)
  · rcases State.engineTurn_cases hu with ⟨rfl, -⟩ | ⟨frame, -, -, -, rfl⟩ | ⟨-, -, -, rfl⟩ | ⟨hl, hs, hpc, hx⟩
    · exact .inr (.inr ⟨rfl, rfl, rfl, rfl, rfl, le_rfl, le_rfl⟩)
    · exact .inr (.inr ⟨rfl, rfl, rfl, rfl, rfl, le_rfl, le_rfl⟩)
    · exact .inr (.inr ⟨rfl, rfl, rfl, rfl, rfl, le_rfl, le_rfl⟩)
    · exact .inr (.inl ⟨⟨henv, hl, hs⟩, hpc, u, hx, rfl⟩)

/-! ## The statements on the state of spec/10_state.md -/

/-! ## PC and the stack -/

/-- An executed instruction keeps PC and the return addresses in range. -/
theorem pcInRange_exec {i : Instr} {s t : State} (hs : s.PcInRange) (hpc : s.pc.toNat ≤ 4094)
    (h : exec i s.advance = .next t) : t.PcInRange := by
  obtain ⟨-, hstack⟩ := hs
  have hadv : s.advance.pc.toNat = s.pc.toNat + 2 := by rw [State.advance_pc]; bv_omega
  rcases exec_pc_cases h with ⟨hst, hto⟩ | hpop | ⟨-, hpush, hto⟩
  · refine ⟨?_, hst ▸ hstack⟩
    rcases hto with hto | hto | hto
    · rw [hto]; omega
    · rw [hto]; bv_omega
    · exact hto
  · have hall := hpop ▸ hstack
    have := hall t.pc List.mem_cons_self
    exact ⟨by omega, fun a ha => hall a (List.mem_cons_of_mem _ ha)⟩
  · refine ⟨by omega, ?_⟩
    rw [hpush]
    exact List.forall_mem_cons.mpr ⟨by omega, hstack⟩

/-- Settles O47: a jump reaches at most 0x10FE, a call pushes an advanced PC of at most 4096, and only an instruction
fetched at 4094 or below moves PC. -/
theorem stepKeepsPcInRange : Obligations.StepKeepsPcInRange := by
  intro s t hs h
  rcases step_writer_cases h with ⟨-, u, -, rfl⟩ | ⟨-, hpc, u, hx, rfl⟩ | hq
  · exact ⟨by simp [State.reset], by simp [State.reset]⟩
  · exact (pcInRange_exec hs hpc hx :)
  · rw [State.PcInRange, hq.pc, hq.stack]; exact hs

/-- An instruction keeps a finite stack within its depth: a call that pushes found room. -/
theorem stackWithinDepth_exec {i : Instr} {s t : State} (hs : s.StackWithinDepth) (h : exec i s = .next t) :
    t.StackWithinDepth := by
  intro depth hd
  rw [(exec_keeps_outside h).1] at hd
  have hlen := hs depth hd
  rcases exec_pc_cases h with ⟨hst, -⟩ | hpop | ⟨hroom, hpush, -⟩
  · rw [hst]; exact hlen
  · rw [hpop, List.length_cons] at hlen; omega
  · have : s.stack.length < depth := by simpa [State.stackFull, hd] using hroom
    rw [hpush, List.length_cons]; exact this

/-- Settles O48: only a call grows the stack, and only one with room. -/
theorem stepKeepsStackWithinDepth : Obligations.StepKeepsStackWithinDepth := by
  intro s t hs h
  rcases step_writer_cases h with ⟨-, u, -, rfl⟩ | ⟨-, -, u, hx, rfl⟩ | hq
  · exact fun depth _ => Nat.zero_le depth
  · have hadv : s.advance.StackWithinDepth := hs
    exact (stackWithinDepth_exec hadv hx :)
  · rw [State.StackWithinDepth, hq.cfg, hq.stack]; exact hs

/-! ## The fault record -/

/-- Out of HALTED the sound record is NONE, 0, 0 (R39). -/
theorem faultRecordSound_iff_of_notHalted {s : State} (hs : s.status ≠ .halted) :
    s.FaultRecordSound ↔ s.faultCause = .none ∧ s.faultPc = 0 ∧ s.faultInfo = 0 := by
  constructor
  · rintro ⟨hiff, hnone, -⟩
    have hc : s.faultCause = .none := by simpa [hs] using hiff
    exact ⟨hc, hnone hc⟩
  · rintro ⟨hc, hp, hi⟩
    simp [State.FaultRecordSound, hs, hc, hp, hi]

/-- Soundness of the record depends on the record, PC, I and on whether the engine is halted. -/
theorem State.FaultRecordSound.of_same {s t : State} (hs : s.FaultRecordSound)
    (hh : t.status = .halted ↔ s.status = .halted) (hr : SameRecord s t) (hpc : t.pc = s.pc) (hi : t.i = s.i) :
    t.FaultRecordSound := by
  obtain ⟨hc, hp, hinfo⟩ := hr
  rw [State.FaultRecordSound, hh, hc, hp, hinfo, hpc, hi]
  exact hs

/-- An event of another agent keeps the record sound: init clears it, the others leave it, PC and I alone. -/
theorem faultRecordSound_applyEvent {s : State} (hs : s.FaultRecordSound) (e : Event) :
    (s.applyEvent e).FaultRecordSound := by
  by_cases he : e = .init
  · subst he
    exact (faultRecordSound_iff_of_notHalted (by simp [State.applyEvent, State.reset])).mpr ⟨rfl, rfl, rfl⟩
  · have hr : SameRecord s (s.applyEvent e) := by
      rw [SameRecord, s.applyEvent_eq he]; exact ⟨rfl, rfl, rfl⟩
    have hq := quietStep_applyEvent s he
    exact hs.of_same (s.applyEvent_halted he) hr hq.pc hq.i

/-- A fetch fault's record is sound (R92, R211). -/
theorem faultRecordSound_fetchFault {s : State} (hpc : 4095 ≤ s.pc.toNat) :
    (s.raise .fetchOutOfMemory s.pc s.pc).FaultRecordSound := by
  simp [State.FaultRecordSound, hpc]

/-- An instruction of an engine that has not halted leaves a sound record: the old one, or that of its own fault. -/
theorem faultRecordSound_exec {i : Instr} {s t : State} (hs : s.FaultRecordSound) (hrun : s.status ≠ .halted)
    (h : exec i s = .next t) : t.FaultRecordSound := by
  obtain ⟨hc, hp, hzero⟩ := (faultRecordSound_iff_of_notHalted hrun).mp hs
  have kept (hst : t.status ≠ .halted) (hr : SameRecord s t) : t.FaultRecordSound :=
    (faultRecordSound_iff_of_notHalted hst).mpr ⟨hr.1.trans hc, hr.2.1.trans hp, hr.2.2.trans hzero⟩
  rcases exec_record_cases h with ⟨hst, hr⟩ | ⟨hst, hr⟩ | ⟨hst, hpc, hfpc, hcause⟩
  · exact kept (hst ▸ hrun) hr
  · exact kept hst hr
  · have hback : t.pc = t.faultPc + 2 := by rw [hpc, hfpc, BitVec.sub_add_cancel]
    rcases hcause with ⟨hcause, hinfo⟩ | ⟨hcause, hinfo⟩ | ⟨hcause, hi, hinfo⟩
    · simp [State.FaultRecordSound, hst, hcause, hinfo, hback]
    · simp [State.FaultRecordSound, hst, hcause, hinfo, hback]
    · simp [State.FaultRecordSound, hst, hcause, hinfo, hi, hback]

/-- Settles O49: only the fetch check and a running instruction write the record, and init clears it. -/
theorem stepKeepsFaultRecordSound : Obligations.StepKeepsFaultRecordSound := by
  intro s t hs h
  rcases step_cases h with ⟨e, rest, -, rfl⟩ | ⟨-, u, hu, rfl⟩
  · have hrest : ({ s with env := rest } : State).FaultRecordSound := hs
    exact faultRecordSound_applyEvent hrest e
  · rcases State.engineTurn_cases hu with ⟨rfl, -⟩ | ⟨frame, -, hst, -, rfl⟩ | ⟨-, -, hpc, rfl⟩ | ⟨-, hst, -, hx⟩
    · exact hs
    · exact hs.of_same (by simp [hst]) ⟨rfl, rfl, rfl⟩ rfl rfl
    · exact faultRecordSound_fetchFault hpc
    · have hrun : s.status ≠ .halted := by simp [hst]
      have hadv : s.advance.FaultRecordSound :=
        (faultRecordSound_iff_of_notHalted (s := s.advance) hrun).mpr ((faultRecordSound_iff_of_notHalted hrun).mp hs)
      exact (faultRecordSound_exec hadv hrun hx :)

/-! ## Who writes what -/

/-- Settles O53: the frame of every other instruction leaves the framebuffer out. -/
theorem framebufferChangedOnlyByClearAndDraw : Obligations.FramebufferChangedOnlyByClearAndDraw := by
  refine ⟨fun i s t h hi => exec_keeps_fb h hi, fun s t h hinit hdraw => ?_⟩
  rcases step_writer_cases h with ⟨he, -⟩ | ⟨hready, -, u, hx, rfl⟩ | hq
  · exact absurd he hinit
  · exact (exec_keeps_fb hx fun hc => hdraw ⟨hready, hc⟩ :)
  · exact hq.fb

/-- Settles O54: an event only lowers a timer and no instruction but FX15 and FX18 touches one. -/
theorem timersFallUnlessWritten : Obligations.TimersFallUnlessWritten := by
  intro s t h
  rcases step_writer_cases h with ⟨-, u, -, rfl⟩ | ⟨hready, -, u, hx, rfl⟩ | hq
  · exact ⟨fun _ => Nat.zero_le _, fun _ => Nat.zero_le _⟩
  · exact ⟨fun hn => (congrArg BitVec.toNat (exec_keeps_dt hx fun hw => hn ⟨hready, hw⟩)).le,
      fun hn => (congrArg BitVec.toNat (exec_keeps_st hx fun hw => hn ⟨hready, hw⟩)).le⟩
  · exact ⟨fun _ => hq.dt_le, fun _ => hq.st_le⟩

/-- Settles O55: init carries the parameters over and nothing else touches them. -/
theorem parametersNeverChange : Obligations.ParametersNeverChange := by
  intro s t h
  rcases step_writer_cases h with ⟨-, u, hcfg, rfl⟩ | ⟨-, -, u, hx, rfl⟩ | hq
  · exact hcfg
  · exact ((exec_keeps_outside hx).1 :)
  · exact hq.cfg

/-- Settles O57, from the frame of every instruction and its register list. -/
theorem instructionsWriteOnlyTheirRegisters : Obligations.InstructionsWriteOnlyTheirRegisters :=
  fun _ _ _ h => ⟨exec_sameRegsBut h, exec_keeps_i h, exec_keeps_stack h⟩

end Sys2Proof.Machine
end

section
/-! PROOFS. Memory and the notification slot: what each instruction and each step does to them (spec/20_memory.md R50, R53,
R55, R59, R61, R63), and the transfers that DATA_OUT_OF_RANGE stops (spec/60_exceptions.md R215). -/

namespace Sys2Proof.Machine

/-! ## Who writes memory (R50, R59) -/

/-- The canonical form depends on memory and the font. -/
theorem State.MemoryCanonical.of_same {s t : State} (hs : s.MemoryCanonical) (hm : t.mem = s.mem) (hc : t.cfg = s.cfg) :
    t.MemoryCanonical := by
  rw [State.MemoryCanonical, hm, hc]
  exact hs

/-- A store from I on leaves the memory of a sequence of writes, whether or not it is stopped. -/
theorem State.storeFromIndex_mem (s : State) (bytes : List Byte) {done : State → State}
    (hdone : ∀ u, (done u).mem = u.mem) :
    ∃ lands, (s.storeFromIndex bytes done).mem = (s.writeBytes lands s.i.toNat 0 bytes).mem := by
  rcases s.storeFromIndex_cases bytes done with h | ⟨bad, h⟩
  · exact ⟨_, by rw [h, hdone]⟩
  · exact ⟨_, by rw [h, State.raiseData_mem]⟩

/-- An instruction leaves memory alone, or it is FX33 or FX55 and writes a sequence of bytes from I on (R50). -/
theorem exec_mem_cases {i : Instr} {s t : State} (h : exec i s = .next t) :
    t.mem = s.mem ∨
    (storesToMemory i ∧ ∃ lands bytes, t.mem = (s.writeBytes lands s.i.toNat 0 bytes).mem) := by
  have hf := congrArg State.mem (exec_frame h)
  cases i
  case ldB x =>
    cases h
    obtain ⟨lands, hm⟩ := s.storeFromIndex_mem (decimalDigits (s.reg x)) (done := id) fun _ => rfl
    exact .inr ⟨⟨x, .inl rfl⟩, lands, _, hm⟩
  case storeRegs x =>
    cases h
    obtain ⟨lands, hm⟩ :=
      s.storeFromIndex_mem (s.regsTo x) (done := fun t => { t with i := s.indexAfterBlock x }) fun _ => rfl
    exact .inr ⟨⟨x, .inr rfl⟩, lands, _, hm⟩
  all_goals exact .inl hf

/-- An event leaves memory alone, or it is init, which clears it to its initial contents (R240), or a load write before
run (R228). -/
theorem State.applyEvent_mem_cases (s : State) (e : Event) :
    (s.applyEvent e).mem = s.mem ∨ (e = .init ∧ (s.applyEvent e).mem = []) ∨
    (s.loading = true ∧ ∃ addr data, e = .loadByte addr data ∧
      (s.applyEvent e).mem = (s.writeByte addr.toNat data).mem) := by
  cases e with
  | tickDelay | tickSound | takeFrame | run => exact .inl rfl
  | answerKey key => rw [State.applyEvent, State.answerKey_eq]; exact .inl rfl
  | init => exact .inr (.inl ⟨rfl, rfl⟩)
  | loadByte addr data =>
    by_cases hl : s.loading = true
    · exact .inr (.inr ⟨hl, addr, data, rfl, by rw [State.applyEvent, State.loadByte, if_pos hl]⟩)
    · exact .inl (by rw [State.applyEvent, State.loadByte, if_neg hl])

/-- A step leaves memory alone, or it is init, a load write before run, or FX33 or FX55 of a ready machine. -/
theorem step_mem_cases {s t : State} (h : step s = .next t) :
    t.mem = s.mem ∨ (s.EventIsNext .init ∧ t.mem = []) ∨
    (s.loading = true ∧ ∃ addr data, s.EventIsNext (.loadByte addr data) ∧
      t.mem = (s.writeByte addr.toNat data).mem) ∨
    (s.Ready ∧ storesToMemory (decode s.fetchWord) ∧
      ∃ lands bytes, t.mem = (s.advance.writeBytes lands s.i.toNat 0 bytes).mem) := by
  rcases step_cases h with ⟨e, rest, henv, rfl⟩ | ⟨henv, u, hu, rfl⟩
  · have hnext : s.EventIsNext e := by rw [State.EventIsNext, henv, List.head?_cons]
    rcases State.applyEvent_mem_cases { s with env := rest } e with hm | ⟨rfl, hm⟩ | ⟨hl, addr, data, rfl, hm⟩
    · exact .inl hm
    · exact .inr (.inl ⟨hnext, hm⟩)
    · exact .inr (.inr (.inl ⟨hl, addr, data, hnext, hm⟩))
  · rcases State.engineTurn_cases hu with ⟨rfl, -⟩ | ⟨frame, -, -, -, rfl⟩ | ⟨-, -, -, rfl⟩ | ⟨hl, hst, -, hx⟩
    · exact .inl rfl
    · exact .inl rfl
    · exact .inl rfl
    · exact (exec_mem_cases hx).imp_right fun ⟨hstores, hm⟩ => .inr (.inr ⟨⟨henv, hl, hst⟩, hstores, hm⟩)

/-- Settles O46: init leaves the empty list, and every other change is by writes, each of which keeps the form. -/
theorem stepKeepsMemoryCanonical : Obligations.StepKeepsMemoryCanonical := by
  intro s t hs h
  have hcfg : t.cfg = s.cfg := parametersNeverChange s t h
  rcases step_mem_cases h with hm | ⟨-, hm⟩ | ⟨-, addr, data, -, hm⟩ | ⟨-, -, lands, bytes, hm⟩
  · exact hs.of_same hm hcfg
  · rw [State.MemoryCanonical, hm]
    exact ⟨.nil, by simp⟩
  · exact (State.memoryCanonical_writeByte hs addr.toNat data).of_same hm hcfg
  · have hadv : s.advance.MemoryCanonical := hs
    refine (State.memoryCanonical_writeBytes lands s.i.toNat bytes 0 hadv).of_same hm ?_
    rw [State.writeBytes_eq]
    exact hcfg

/-- Settles O56, from the cases of an instruction and of a step. -/
theorem memoryChangedOnlyByStores : Obligations.MemoryChangedOnlyByStores := by
  refine ⟨fun i s t h hi a => ?_, fun s t h hinit hload hstore a => ?_⟩
  · rcases exec_mem_cases h with hm | ⟨hstores, -⟩
    · exact State.readByte_congr hm (exec_keeps_outside h).1 a
    · exact absurd hstores hi
  · rcases step_mem_cases h with hm | ⟨hnext, -⟩ | ⟨hl, addr, data, hnext, -⟩ | ⟨hready, hstores, -⟩
    · exact State.readByte_congr hm (parametersNeverChange s t h) a
    · exact absurd hnext hinit
    · exact absurd hnext (hload hl addr data)
    · exact absurd ⟨hready, hstores⟩ hstore

/-! ## Transfers past 4095 (R53, R215) -/

/-- DATA_OUT_OF_RANGE raised on a state that differs from s in registers, memory and pixels alone. -/
theorem raised_raiseData {s u : State} (hu : u = { s with v := u.v, mem := u.mem, fb := u.fb }) (bad : Nat) :
    Raised .dataOutOfRange (s.pc - 2) (BitVec.ofNat 16 bad) s (u.raiseData bad) := by
  rw [hu]
  exact ⟨rfl, rfl, rfl, rfl, rfl⟩

/-- A byte after a sequence of writes of which some land is as before, or the one the sequence has for its address. -/
theorem State.readByte_writeBytes_old_or_new (lands : Nat → Bool) (base : Nat) (bytes : List Byte) {s : State}
    (hs : s.MemoryCanonical) (a : Nat) :
    (s.writeBytes lands base 0 bytes).readByte a = s.readByte a ∨
    ∃ k, ∃ hk : k < bytes.length, a = base + k ∧ a < 4096 ∧
      (s.writeBytes lands base 0 bytes).readByte a = bytes[k] := by
  rw [State.readByte_writeBytes lands base bytes 0 hs]
  split
  · next hin =>
    obtain ⟨hfrom, hto, hexists, -⟩ := hin
    exact .inr ⟨a - base - 0, by omega, by omega, hexists, rfl⟩
  · exact .inl rfl

/-- t is s after DATA_OUT_OF_RANGE stopped a store of the bytes from I on: the record, and each byte that exists old or
new (R215). -/
def StoppedStore (bytes : List Byte) (s t : State) : Prop :=
  Raised .dataOutOfRange (s.pc - 2) (BitVec.ofNat 16 (max s.i.toNat 4096)) s t ∧ t.v = s.v ∧ t.fb = s.fb ∧
  ∀ a, t.readByte a = s.readByte a ∨
    ∃ k, ∃ hk : k < bytes.length, a = s.i.toNat + k ∧ a < 4096 ∧ t.readByte a = bytes[k]

theorem stoppedStore_storeFromIndex {s : State} (hs : s.MemoryCanonical) {bytes : List Byte} (done : State → State)
    (h0 : 0 < bytes.length) (h : 4096 < s.i.toNat + bytes.length) :
    StoppedStore bytes s (s.storeFromIndex bytes done) := by
  rw [State.storeFromIndex_of_pastEnd s bytes done h0 h]
  have hw := State.writeBytes_eq (Config.holdsNew s.draws) s.i.toNat bytes 0 s
  refine ⟨raised_raiseData (hw.trans ?_) _, ?_, ?_, State.readByte_writeBytes_old_or_new _ _ _ hs⟩
  · rw [hw]
  · rw [State.raiseData_v, hw]
  · rw [State.raiseData_fb, hw]

@[simp] theorem State.length_regsTo (s : State) (x : Nibble) : (s.regsTo x).length = blockLength x := by
  simp [State.regsTo]

/-- The k-th byte of a block store is V[k] (R164). -/
theorem State.getElem_regsTo (s : State) (x : Nibble) {k : Nat} (hk : k < (s.regsTo x).length) :
    (s.regsTo x)[k] = s.reg (BitVec.ofNat 4 k) := by
  simp [State.regsTo]

/-- Settles O38: the last byte of a store that reaches 4096 does not exist, so one that changed is among the others. -/
theorem storesPastEndHalt : Obligations.StoresPastEndHalt := by
  refine fun s x hs => ⟨fun hend => ⟨_, rfl, ?_⟩, fun hend => ⟨_, rfl, ?_⟩⟩
  · have hx := (s.reg x).isLt
    have hlen : (decimalDigits (s.reg x)).length = 3 := rfl
    obtain ⟨hraised, hv, hfb, hbyte⟩ :=
      stoppedStore_storeFromIndex hs (bytes := decimalDigits (s.reg x)) id (by omega) (by omega)
    refine ⟨hraised, hv, hfb, fun a => (hbyte a).imp_right ?_⟩
    rintro ⟨k, hk, rfl, ha, hb⟩
    rw [hb]
    have hk2 : k < 2 := by omega
    match k with
    | 0 => exact .inl ⟨rfl, by simp [decimalDigits]; omega⟩
    | 1 => exact .inr ⟨rfl, by simp [decimalDigits]; omega⟩
  · have hlen : (s.regsTo x).length = x.toNat + 1 := s.length_regsTo x
    obtain ⟨hraised, hv, hfb, hbyte⟩ := stoppedStore_storeFromIndex hs (bytes := s.regsTo x)
      (fun t => { t with i := s.indexAfterBlock x }) (by omega) (by omega)
    refine ⟨hraised, hv, hfb, fun a => (hbyte a).imp_right ?_⟩
    rintro ⟨k, hk, rfl, ha, hb⟩
    have := x.isLt
    have hk4 : (BitVec.ofNat 4 k).toNat = k := by simp only [BitVec.toNat_ofNat]; omega
    exact ⟨BitVec.ofNat 4 k, by omega, by omega, ha, hb.trans (s.getElem_regsTo x hk)⟩

/-- Settles O39: a register whose load lands has a byte that exists, so it is not V[X]. -/
theorem loadPastEndHalts : Obligations.LoadPastEndHalts := by
  intro s x hend
  have hlen : blockLength x = x.toNat + 1 := rfl
  have hpast : 4096 < s.i.toNat + blockLength x := by omega
  have hbad := firstOutOfRange_eq_some (by omega) hpast
  have hload := State.loadBytes_eq (Config.holdsNew s.draws) s.i.toNat (blockLength x) s
  refine ⟨_, by simp only [exec, execLoadRegs, hbad], raised_raiseData (hload.trans ?_) _, ?_, ?_, fun r => ?_⟩
  · rw [hload]
  · rw [State.raiseData_mem, hload]
  · rw [State.raiseData_fb, hload]
  · rw [State.reg_raiseData, State.reg_loadBytes _ _ (n := blockLength x) x.isLt]
    split
    · next hlands =>
      obtain ⟨-, hexists, -⟩ := hlands
      have : s.i.toNat + r.toNat < 4096 := hexists
      exact .inr ⟨by omega, hexists, rfl⟩
    · exact .inl rfl

/-! ## A store over the next instruction (R63) -/

/-- After a block store that is not stopped, the byte at I + r is V[r] (R164). -/
theorem readByte_exec_storeRegs {s t : State} {x : Nibble} (hs : s.MemoryCanonical)
    (h : exec (.storeRegs x) s = .next t) (hend : s.i.toNat + x.toNat < 4096) {r : Nibble} (hr : r.toNat ≤ x.toNat) :
    t.readByte (s.i.toNat + r.toNat) = s.reg r := by
  have hlen : (s.regsTo x).length = x.toNat + 1 := s.length_regsTo x
  have hfits : s.i.toNat + (s.regsTo x).length ≤ 4096 := by omega
  have haddr : s.i.toNat + r.toNat < 4096 := by omega
  rw [exec, execStoreRegs, State.storeFromIndex_of_inRange s _ _ hfits] at h
  cases h
  refine (State.readByte_writeBytes _ _ _ 0 hs _).trans ?_
  rw [dif_pos ⟨by omega, by omega, haddr, rfl⟩, State.getElem_regsTo]
  simp

/-- Settles O60: the fetch reads the two bytes at PC, which the store leaves alone. -/
theorem storeIsSeenByTheNextFetch : Obligations.StoreIsSeenByTheNextFetch := by
  intro s t x hi lo hs h hend hpc hlo hlox
  have hpc_kept : t.pc = s.pc := (congrArg State.pc (exec_frame h) :)
  have hnext : s.pc.toNat + 1 = s.i.toNat + lo.toNat := by omega
  rw [State.fetchWord, hpc_kept, hnext, hpc, readByte_exec_storeRegs hs h hend (by omega),
    readByte_exec_storeRegs hs h hend hlox, wordOfBytes]

/-! ## The notification slot (R61, R197) -/

/-- A notification leaves a full slot alone and puts the framebuffer into an empty one. -/
theorem State.notify_slot_cases (s : State) :
    s.notify.slot = s.slot ∨ (s.slot = none ∧ s.notify.slot = some s.notify.fb) := by
  obtain ⟨hempty, hfull⟩ := notified_notify s
  by_cases hslot : s.slot = none
  · exact .inr ⟨hslot, by rw [(hempty hslot).1, State.notify_fb]⟩
  · exact .inl (hfull hslot).1

/-- An instruction leaves the slot alone, or it is 00E0 or DXYN and puts the framebuffer into an empty one (R197). -/
theorem exec_slot_cases {i : Instr} {s t : State} (h : exec i s = .next t) :
    t.slot = s.slot ∨ (changesFramebuffer i ∧ s.slot = none ∧ t.slot = some t.fb) := by
  have hf := congrArg State.slot (exec_frame h)
  cases i
  case cls => cases h; exact (State.notify_slot_cases _).imp_right fun hn => ⟨.inl rfl, hn⟩
  case drw x y n =>
    simp only [exec, execDrw] at h
    split at h <;> cases h
    · exact (State.notify_slot_cases _).imp_right fun hn => ⟨.inr ⟨x, y, n, rfl⟩, hn⟩
    · exact .inl rfl
  all_goals exact .inl hf

/-- Only the taking of a snapshot and init touch the slot among the events, and both empty it (R225, R240). -/
theorem State.applyEvent_slot_cases (s : State) (e : Event) :
    (s.applyEvent e).slot = s.slot ∨ ((e = .takeFrame ∨ e = .init) ∧ (s.applyEvent e).slot = none) := by
  cases e with
  | tickDelay | tickSound | run => exact .inl rfl
  | takeFrame => exact .inr ⟨.inl rfl, rfl⟩
  | answerKey key => rw [State.applyEvent, State.answerKey_eq]; exact .inl rfl
  | init => exact .inr ⟨.inr rfl, rfl⟩
  | loadByte addr data => rw [State.applyEvent, State.loadByte_eq]; exact .inl rfl

/-- A step leaves the slot alone, empties it as disp_take or init, or fills an empty one: with the snapshot that waits or,
as 00E0 or DXYN, with the framebuffer. -/
theorem step_slot_cases {s t : State} (h : step s = .next t) :
    t.slot = s.slot ∨
    ((s.EventIsNext .takeFrame ∨ s.EventIsNext .init) ∧ t.slot = none) ∨
    (s.slot = none ∧ ∃ frame, s.status = .notifyPending frame ∧ t.slot = some frame) ∨
    (s.slot = none ∧ s.Ready ∧ changesFramebuffer (decode s.fetchWord) ∧ t.slot = some t.fb) := by
  rcases step_cases h with ⟨e, rest, henv, rfl⟩ | ⟨henv, u, hu, rfl⟩
  · have hnext : s.EventIsNext e := by rw [State.EventIsNext, henv, List.head?_cons]
    rcases State.applyEvent_slot_cases { s with env := rest } e with hkeep | ⟨rfl | rfl, hnone⟩
    · exact .inl hkeep
    · exact .inr (.inl ⟨.inl hnext, hnone⟩)
    · exact .inr (.inl ⟨.inr hnext, hnone⟩)
  · rcases State.engineTurn_cases hu with ⟨rfl, -⟩ | ⟨frame, -, hst, hslot, rfl⟩ | ⟨-, -, -, rfl⟩ | ⟨hl, hst, -, hx⟩
    · exact .inl rfl
    · exact .inr (.inr (.inl ⟨hslot, frame, hst, rfl⟩))
    · exact .inl rfl
    · exact (exec_slot_cases hx).imp_right fun ⟨hfb, hslot, hput⟩ =>
        .inr (.inr ⟨hslot, ⟨henv, hl, hst⟩, hfb, hput⟩)

/-- Settles O59, from the cases of a step: a full slot is only kept or emptied, an empty one only filled. -/
theorem slotKeepsItsSnapshotUntilTaken : Obligations.SlotKeepsItsSnapshotUntilTaken := by
  intro s t h
  rcases step_slot_cases h with hkeep | ⟨hnext, hnone⟩ | ⟨hslot, hpending⟩ | ⟨hslot, hdrawn⟩
  · exact ⟨fun frame hfull _ _ => hkeep.trans hfull, fun hslot hput => absurd (hkeep.trans hslot) hput⟩
  · exact ⟨fun _ _ htake hinit => absurd hnext (not_or.mpr ⟨htake, hinit⟩), fun _ hput => absurd hnone hput⟩
  · exact ⟨fun _ hfull => by simp [hslot] at hfull, fun _ _ => .inl hpending⟩
  · exact ⟨fun _ hfull => by simp [hslot] at hfull, fun _ _ => .inr hdrawn⟩

end Sys2Proof.Machine
end

section
/-! PROOFS. The encoding (spec/30_encoding.md R70 to R79): a word and its fields, decode and encode as inverses, the
no-op words, and the opcode table held against the decoder. -/

namespace Sys2Proof

open Machine (NoOpWord)

/-! ## A word and its fields (R70, R71) -/

section
variable (w : Half)

theorem fieldF_toNat : (fieldF w).toNat = w.toNat / 4096 := by
  have := w.isLt
  simp only [fieldF, BitVec.extractLsb'_toNat, Nat.shiftRight_eq_div_pow]
  omega

theorem fieldX_toNat : (fieldX w).toNat = w.toNat / 256 % 16 := by simp [fieldX, Nat.shiftRight_eq_div_pow]

theorem fieldY_toNat : (fieldY w).toNat = w.toNat / 16 % 16 := by simp [fieldY, Nat.shiftRight_eq_div_pow]

theorem fieldN_toNat : (fieldN w).toNat = w.toNat % 16 := by simp [fieldN]

theorem fieldNN_toNat : (fieldNN w).toNat = w.toNat % 256 := by simp [fieldNN]

theorem fieldNNN_toNat : (fieldNNN w).toNat = w.toNat % 4096 := by simp [fieldNNN]

@[simp] theorem wordNNN_fields : wordNNN (fieldF w) (fieldNNN w) = w := by
  apply BitVec.eq_of_toNat_eq
  rw [wordNNN, toNat_append, fieldF_toNat, fieldNNN_toNat]
  omega

@[simp] theorem wordXNN_fields : wordXNN (fieldF w) (fieldX w) (fieldNN w) = w := by
  apply BitVec.eq_of_toNat_eq
  rw [wordXNN, toNat_append, toNat_append, fieldF_toNat, fieldX_toNat, fieldNN_toNat]
  omega

@[simp] theorem wordXYN_fields : wordXYN (fieldF w) (fieldX w) (fieldY w) (fieldN w) = w := by
  apply BitVec.eq_of_toNat_eq
  rw [wordXYN, toNat_append, toNat_append, toNat_append, fieldF_toNat, fieldX_toNat, fieldY_toNat, fieldN_toNat]
  omega

end

/-- Settles O16: each field is a quotient or a remainder of b1 * 256 + b2. -/
theorem fieldsOfTheBytePair : Obligations.FieldsOfTheBytePair := by
  intro b1 b2
  have hw : (wordOfBytes b1 b2).toNat = b1.toNat * 256 + b2.toNat := toNat_append b1 b2
  have hb1 := b1.isLt
  have hb2 := b2.isLt
  refine ⟨?_, ?_, ?_, ?_, BitVec.eq_of_toNat_eq ?_, ?_⟩
  · rw [fieldF_toNat, hw]; omega
  · rw [fieldX_toNat, hw]; omega
  · rw [fieldY_toNat, hw]; omega
  · rw [fieldN_toNat, hw]; omega
  · rw [fieldNN_toNat, hw]; omega
  · rw [fieldNNN_toNat, fieldX_toNat, fieldY_toNat, fieldN_toNat]; omega

/-! ## Decode of encode -/

/-- Settles O17, from the round trip of each instruction. -/
theorem decodeInvertsEncode : Obligations.DecodeInvertsEncode := by
  open Laws.RoundTrip in
  intro i
  cases i
  exacts [cls, ret, sys _, jp _, call _, seByte _ _, sneByte _ _, seReg _ _ _, ldByte _ _, addByte _ _,
    ldReg _ _, orReg _ _, andReg _ _, xorReg _ _, addReg _ _, subReg _ _, shrReg _ _, subnReg _ _, shlReg _ _,
    nop88 _ _, nop89 _ _, nop8A _ _, nop8B _ _, nop8C _ _, nop8D _ _, nop8F _ _, sneReg _ _ _, ldI _, jpV0 _,
    rnd _ _, drw _ _ _, skp _, sknp _, nopE _ _, ldVxDt _, ldVxK _, ldDtVx _, ldStVx _, addI _, ldF _, ldB _,
    storeRegs _, loadRegs _, nopF _ _]

/-! ## Encode of decode -/

/-- w is the word of the well-formed instruction i. -/
def IsWordOf (w : Half) (i : Instr) : Prop := i.wellFormed = true ∧ encode i = w

section
variable {w : Half} {x y n : Nibble} {nn : Byte} {nnn : Addr}

theorem isWordOf_decodeFamily0 (hw : wordNNN 0x0 nnn = w) : IsWordOf w (decodeFamily0 nnn) := by
  subst hw
  unfold decodeFamily0
  split_ifs with hcls hret
  · exact ⟨rfl, by rw [hcls]; rfl⟩
  · exact ⟨rfl, by rw [hret]; rfl⟩
  · exact ⟨by simp_all [Instr.wellFormed, family0Keys], rfl⟩

theorem isWordOf_decodeFamily8 (hw : wordXYN 0x8 x y n = w) : IsWordOf w (decodeFamily8 x y n) := by
  subst hw
  obtain ⟨n⟩ := n
  fin_cases n <;> exact ⟨rfl, rfl⟩

theorem isWordOf_decodeFamilyE (hw : wordXNN 0xE x nn = w) : IsWordOf w (decodeFamilyE x nn) := by
  subst hw
  unfold decodeFamilyE
  split_ifs with hskp hsknp
  · exact ⟨rfl, by rw [hskp, encode]⟩
  · exact ⟨rfl, by rw [hsknp, encode]⟩
  · exact ⟨by simp_all [Instr.wellFormed, familyEKeys], rfl⟩

theorem isWordOf_decodeFamilyF (hw : wordXNN 0xF x nn = w) : IsWordOf w (decodeFamilyF x nn) := by
  subst hw
  unfold decodeFamilyF
  split_ifs
  case neg => exact ⟨by simp_all [Instr.wellFormed, familyFKeys], rfl⟩
  all_goals
    next hkey => exact ⟨rfl, by rw [hkey, encode]⟩

end

/-- Every word is the word of its decoded instruction: the sixteen families in order. -/
theorem isWordOf_decode (w : Half) : IsWordOf w (decode w) := by
  have hNNN := wordNNN_fields w
  have hXNN := wordXNN_fields w
  have hXYN := wordXYN_fields w
  rw [decode]
  generalize fieldF w = f at *
  obtain ⟨f⟩ := f
  fin_cases f
  · exact isWordOf_decodeFamily0 hNNN
  · exact ⟨rfl, hNNN⟩
  · exact ⟨rfl, hNNN⟩
  · exact ⟨rfl, hXNN⟩
  · exact ⟨rfl, hXNN⟩
  · exact ⟨rfl, hXYN⟩
  · exact ⟨rfl, hXNN⟩
  · exact ⟨rfl, hXNN⟩
  · exact isWordOf_decodeFamily8 hXYN
  · exact ⟨rfl, hXYN⟩
  · exact ⟨rfl, hNNN⟩
  · exact ⟨rfl, hNNN⟩
  · exact ⟨rfl, hXNN⟩
  · exact ⟨rfl, hXYN⟩
  · exact isWordOf_decodeFamilyE hXNN
  · exact isWordOf_decodeFamilyF hXNN

/-- Settles O18, from the families. -/
theorem encodeInvertsDecode : Obligations.EncodeInvertsDecode := isWordOf_decode

/-! ## The no-op words (R79) -/

theorem noOpWord_encode_iff {i : Instr} (h : i.wellFormed = true) : NoOpWord (encode i) ↔ i.isNoOp = true := by
  cases i
  case cls | ret => simp [NoOpWord, encode, Instr.isNoOp, fieldF, fieldNNN]
  case sys | nopE | nopF =>
    simp_all [NoOpWord, encode, Instr.isNoOp, Instr.wellFormed, family0Keys, familyEKeys, familyFKeys]
  all_goals simp [NoOpWord, encode, Instr.isNoOp]

/-- Settles O19: every word is the word of its decoded instruction, and a no-op's words are the listed ones. -/
theorem noOpWordsAreExactlyTheListed : Obligations.NoOpWordsAreExactlyTheListed := by
  intro w
  obtain ⟨hwf, hw⟩ := isWordOf_decode w
  rw [← noOpWord_encode_iff hwf, hw]

/-! ## The opcode table (R79)

A row's mask covers the family, alone or with the second key N, NN or NNN. So a row tests fields, and the fields of an
encoded instruction are known. -/

section
variable (w v : Half)

theorem and_F000 : w &&& 0xF000 = wordNNN (fieldF w) 0 :=
  calc w &&& 0xF000
    _ = (fieldF w ++ fieldNNN w) &&& (BitVec.allOnes 4 ++ 0#12) := congrArg (· &&& 0xF000) (wordNNN_fields w).symm
    _ = fieldF w ++ 0#12 := by rw [BitVec.and_append, BitVec.and_allOnes, BitVec.and_zero]

theorem and_F00F : w &&& 0xF00F = wordXYN (fieldF w) 0 0 (fieldN w) :=
  calc w &&& 0xF00F
    _ = (fieldF w ++ fieldX w ++ fieldY w ++ fieldN w) &&& (BitVec.allOnes 4 ++ 0#4 ++ 0#4 ++ BitVec.allOnes 4) :=
      congrArg (· &&& 0xF00F) (wordXYN_fields w).symm
    _ = fieldF w ++ 0#4 ++ 0#4 ++ fieldN w := by simp only [BitVec.and_append, BitVec.and_allOnes, BitVec.and_zero]

theorem and_F0FF : w &&& 0xF0FF = wordXNN (fieldF w) 0 (fieldNN w) :=
  calc w &&& 0xF0FF
    _ = (fieldF w ++ fieldX w ++ fieldNN w) &&& (BitVec.allOnes 4 ++ 0#4 ++ BitVec.allOnes 8) :=
      congrArg (· &&& 0xF0FF) (wordXNN_fields w).symm
    _ = fieldF w ++ 0#4 ++ fieldNN w := by simp only [BitVec.and_append, BitVec.and_allOnes, BitVec.and_zero]

theorem and_F000_eq_and_iff : w &&& 0xF000 = v &&& 0xF000 ↔ fieldF w = fieldF v := by
  rw [and_F000, and_F000]
  exact ⟨fun h => by simpa using congrArg fieldF h, fun hF => by rw [hF]⟩

theorem and_F00F_eq_and_iff : w &&& 0xF00F = v &&& 0xF00F ↔ fieldF w = fieldF v ∧ fieldN w = fieldN v := by
  rw [and_F00F, and_F00F]
  exact ⟨fun h => ⟨by simpa using congrArg fieldF h, by simpa using congrArg fieldN h⟩,
    fun ⟨hF, hN⟩ => by rw [hF, hN]⟩

theorem and_F0FF_eq_and_iff : w &&& 0xF0FF = v &&& 0xF0FF ↔ fieldF w = fieldF v ∧ fieldNN w = fieldNN v := by
  rw [and_F0FF, and_F0FF]
  exact ⟨fun h => ⟨by simpa using congrArg fieldF h, by simpa using congrArg fieldNN h⟩,
    fun ⟨hF, hNN⟩ => by rw [hF, hNN]⟩

theorem and_FFFF_eq_and_iff : w &&& 0xFFFF = v &&& 0xFFFF ↔ fieldF w = fieldF v ∧ fieldNNN w = fieldNNN v := by
  rw [show (0xFFFF : Half) = BitVec.allOnes 16 from rfl, BitVec.and_allOnes, BitVec.and_allOnes]
  exact ⟨fun h => by simp [h], fun ⟨hF, hNNN⟩ => by rw [← wordNNN_fields w, hF, hNNN, wordNNN_fields]⟩

end

/-- The word has the row's family, and its second key where the row's mask covers one. -/
def OpcodeRow.fits (r : OpcodeRow) (w : Half) : Bool :=
  fieldF w == fieldF r.value &&
    (r.mask == 0xF000 || (r.mask == 0xF00F && fieldN w == fieldN r.value) ||
      (r.mask == 0xF0FF && fieldNN w == fieldNN r.value) || (r.mask == 0xFFFF && fieldNNN w == fieldNNN r.value))

/-- A row's value lies within its mask, which is one of four. -/
theorem mask_of_mem_opcodeTable : ∀ r ∈ opcodeTable, r.value &&& r.mask = r.value ∧
    (r.mask = 0xF000 ∨ r.mask = 0xF00F ∨ r.mask = 0xF0FF ∨ r.mask = 0xFFFF) := by decide

/-- A word matches a row of the table iff its fields do. -/
theorem matches_eq_fits (w : Half) {r : OpcodeRow} (hr : r ∈ opcodeTable) :
    (w &&& r.mask == r.value) = r.fits w := by
  obtain ⟨hvalue, hmask⟩ := mask_of_mem_opcodeTable r hr
  have hmatch : w &&& r.mask = r.value ↔ w &&& r.mask = r.value &&& r.mask := by rw [hvalue]
  rw [Bool.eq_iff_iff, beq_iff_eq, hmatch, OpcodeRow.fits]
  rcases hmask with h | h | h | h <;> rw [h]
  · rw [and_F000_eq_and_iff]; simp
  · rw [and_F00F_eq_and_iff]; simp
  · rw [and_F0FF_eq_and_iff]; simp
  · rw [and_FFFF_eq_and_iff]; simp

/-- An instruction's word selects its row: by its fields, the catch-all no-ops by fitting no row of another key. -/
theorem selectedRows_encode {i : Instr} (h : i.wellFormed = true) :
    (selectedRows (encode i)).map OpcodeRow.mnemonic = [i.mnemonic] := by
  rw [selectedRows, List.filter_congr fun r hr => matches_eq_fits _ hr]
  cases i
  case cls | ret => rfl
  case sys | nopE | nopF =>
    simp only [OpcodeRow.fits, encode, fieldF_wordNNN, fieldNNN_wordNNN, fieldF_wordXNN, fieldNN_wordXNN]
    simp_all [Instr.wellFormed, family0Keys, familyEKeys, familyFKeys, Instr.mnemonic, opcodeTable, rowsFamilies0To8,
      rowsFamily8, rowsFamilies9ToE, rowsFamilyF, fieldF, fieldNN, fieldNNN]
  all_goals
    simp only [OpcodeRow.fits, encode, fieldF_wordNNN, fieldF_wordXNN, fieldNN_wordXNN, fieldF_wordXYN, fieldN_wordXYN]
    rfl

/-- Settles O20: every word is the word of its decoded instruction, and that selects its row. -/
theorem tableSelectsTheDecodedRow : Obligations.TableSelectsTheDecodedRow := by
  intro w
  obtain ⟨hwf, hw⟩ := isWordOf_decode w
  rw [← selectedRows_encode hwf, hw]

/-! ## Words written out -/

/-- Settles O15, each word by computation. -/
theorem decodesWordsOfEachFamily : Obligations.DecodesWordsOfEachFamily := by
  unfold Obligations.DecodesWordsOfEachFamily
  decide

end Sys2Proof
end

section
/-! PROOFS. No instruction and no step ends in a fault or a refusal of the model (spec/30_encoding.md R72,
spec/60_exceptions.md R212). -/

namespace Sys2Proof.Machine

theorem exec_answers_next (i : Instr) (s : State) : ∃ t, exec i s = .next t := by
  cases i
  case ret => rw [exec, execRet]; split <;> exact ⟨_, rfl⟩
  case call => rw [exec, execCall]; split <;> exact ⟨_, rfl⟩
  case drw => simp only [exec, execDrw]; split <;> exact ⟨_, rfl⟩
  case loadRegs => rw [exec, execLoadRegs]; split <;> exact ⟨_, rfl⟩
  all_goals exact ⟨_, rfl⟩

theorem State.engineStep_answers_next (s : State) : ∃ t, s.engineStep = .next t := by
  unfold State.engineStep
  split
  · exact ⟨_, rfl⟩
  · exact exec_answers_next _ _

theorem State.engineTurn_answers_next (s : State) : ∃ t, s.engineTurn = .next t := by
  unfold State.engineTurn
  split
  · exact ⟨_, rfl⟩
  · cases s.status with
    | running => exact s.engineStep_answers_next
    | notifyPending | waitKey | halted => exact ⟨_, rfl⟩

/-- Settles O13: an event always answers a next state, and so does the engine's turn. -/
theorem everyStepAnswersNext : Obligations.EveryStepAnswersNext := by
  refine ⟨exec_answers_next, fun s => ?_⟩
  obtain ⟨u, hu⟩ := s.engineTurn_answers_next
  rw [step, State.machineStep, hu]
  split <;> exact ⟨_, rfl⟩

end Sys2Proof.Machine
end

section
/-! PROOFS. The engine's turn (spec/40_engine.md R90 to R101): what a step is before, at and past the fetch, what a
suspended engine leaves alone, and which instructions touch the status. -/

namespace Sys2Proof.Machine

/-! ## The engine's turn, by what the state asks of it -/

theorem step_of_noEvent {s : State} (henv : s.env = []) : step s = endTurn s.engineTurn := by
  rw [step, State.machineStep, henv]

theorem step_of_ready {s : State} (hs : s.Ready) : step s = endTurn s.engineStep := by
  obtain ⟨henv, hl, hst⟩ := hs
  rw [step_of_noEvent henv, State.engineTurn, hl, hst]
  rfl

/-- The fetch bound check fires from 4095 on (R92). -/
theorem State.fetchFaults_iff (s : State) : s.fetchFaults = true ↔ 4095 ≤ s.pc.toNat := by
  simp [State.fetchFaults, memSize]

/-- A fetch in range runs the instruction decoded at PC on the advanced state (R90, R91). -/
theorem step_of_fetch {s : State} (hs : s.Ready) (hpc : s.pc.toNat ≤ 4094) :
    step s = endTurn (exec (decode s.fetchWord) s.advance) := by
  rw [step_of_ready hs, State.engineStep, if_neg (by rw [s.fetchFaults_iff]; omega)]

/-- A fetch past the end halts the engine, PC not advanced (R92). -/
theorem step_of_fetchFault {s : State} (hs : s.Ready) (hpc : 4095 ≤ s.pc.toNat) :
    step s = .next (s.raise .fetchOutOfMemory s.pc s.pc).environmentNext := by
  rw [step_of_ready hs, State.engineStep, if_pos (s.fetchFaults_iff.mpr hpc), endTurn]

/-- The engine takes no step: before `run`, in WAIT_KEY, in HALTED, and in NOTIFY_PENDING on a full slot. -/
def State.Suspended (s : State) : Prop :=
  s.loading = true ∨ (∃ x, s.status = .waitKey x) ∨ s.status = .halted ∨
    ((∃ frame, s.status = .notifyPending frame) ∧ s.slot ≠ none)

/-- None of the other cases of the engine's turn is open to a suspended engine. -/
theorem State.engineTurn_of_suspended {s : State} (hs : s.Suspended) : s.engineTurn = .next s := by
  obtain ⟨u, hu⟩ := s.engineTurn_answers_next
  rcases State.engineTurn_cases hu with ⟨rfl, -⟩ | ⟨frame, hl, hst, hslot, -⟩ | ⟨hl, hst, -⟩ | ⟨hl, hst, -⟩
  · exact hu
  · exact absurd hs (by simp [State.Suspended, hl, hst, hslot])
  · exact absurd hs (by simp [State.Suspended, hl, hst])
  · exact absurd hs (by simp [State.Suspended, hl, hst])

/-- Settles O6: the suspended engine's turn answers the state itself, and the end of the turn follows. -/
theorem suspendedEngineTakesNoStep : Obligations.SuspendedEngineTakesNoStep := by
  intro s henv hs
  exact ⟨s.environmentNext, by rw [step_of_noEvent henv, State.engineTurn_of_suspended hs, endTurn], rfl⟩

/-- Settles O4: every decoded word is well-formed, and a fetch in range runs it. -/
theorem stepRunsDecodedInstruction : Obligations.StepRunsDecodedInstruction := by
  rintro s i hs hpc rfl
  exact ⟨(isWordOf_decode _).1, step_of_fetch hs (by omega)⟩

/-- Settles O5, from the two sides of the bound check. -/
theorem fetchPastEndFaults : Obligations.FetchPastEndFaults := by
  intro s hs
  constructor
  · intro hpc
    exact ⟨_, step_of_fetchFault hs hpc, rfl, rfl, rfl, rfl, rfl⟩
  · intro hpc
    rw [step_of_fetch hs hpc.le, State.fetchWord, hpc]
    rfl

/-! ## No-ops (R97) -/

theorem exec_of_isNoOp {i : Instr} (hi : i.isNoOp = true) (s : State) : exec i s = .next s := by
  cases i
  case sys | nop88 | nop89 | nop8A | nop8B | nop8C | nop8D | nop8F | nopE | nopF => rfl
  all_goals cases hi

/-- Settles O21: a no-op answers the state it is given, and the words of R79 decode to no-ops. -/
theorem noOpsOnlyAdvancePc : Obligations.NoOpsOnlyAdvancePc := by
  refine ⟨fun s nnn x y nn => ?_, fun s hs hpc hw => ?_⟩
  · have noOp {i : Instr} (hi : i.isNoOp = true) : exec i s = .next s := exec_of_isNoOp hi s
    exact ⟨noOp rfl, noOp rfl, noOp rfl, noOp rfl, noOp rfl, noOp rfl, noOp rfl, noOp rfl, noOp rfl, noOp rfl⟩
  · have hi : (decode s.fetchWord).isNoOp = true := (noOpWordsAreExactlyTheListed _).mpr hw
    have hstep : step s = .next s.advance.environmentNext := by
      rw [step_of_fetch hs (by omega), exec_of_isNoOp hi, endTurn]
    exact ⟨_, hstep, rfl⟩

/-! ## HALTED (R101, R217) -/

/-- No key is awaited in HALTED (R184). -/
theorem State.answerKey_of_halted {s : State} (hst : s.status = .halted) (key : Nibble) : s.answerKey key = s := by
  simp [State.answerKey, hst]

/-- The load port is closed after `run` (R228). -/
theorem State.loadByte_of_not_loading {s : State} (hl : s.loading = false) (addr : Addr) (data : Byte) :
    s.loadByte addr data = s := by
  rw [State.loadByte, if_neg (by simp [hl])]

/-- In HALTED after `run` an event other than init reaches the timers and the slot alone (R217, R232). -/
theorem State.applyEvent_of_halted {s : State} (hst : s.status = .halted) (hl : s.loading = false) {e : Event}
    (he : e ≠ .init) :
    s.applyEvent e = { s with dt := (s.applyEvent e).dt, st := (s.applyEvent e).st, slot := (s.applyEvent e).slot } := by
  cases e with
  | tickDelay | tickSound | takeFrame => rfl
  | answerKey key => rw [State.applyEvent, State.answerKey_of_halted hst]
  | init => exact absurd rfl he
  | loadByte addr data => rw [State.applyEvent, State.loadByte_of_not_loading hl]
  | run => rw [State.applyEvent, ← hl]

/-- Settles O52: an event reaches the timers and the slot alone, and the engine's turn nothing. -/
theorem onlyInitLeavesHalted : Obligations.OnlyInitLeavesHalted := by
  intro s t hst hl hinit h
  rcases step_cases h with ⟨e, rest, henv, rfl⟩ | ⟨-, u, hu, rfl⟩
  · have he : e ≠ .init := by rintro rfl; exact hinit (by rw [State.EventIsNext, henv, List.head?_cons])
    have hframe := State.applyEvent_of_halted (s := { s with env := rest }) hst hl he
    obtain ⟨hdt, hst⟩ := State.applyEvent_timers_le { s with env := rest } e
    have hslot := (State.applyEvent_slot_cases { s with env := rest } e).imp_right And.right
    exact ⟨by rw [hframe], hslot, hdt, hst⟩
  · rw [State.engineTurn_of_suspended (.inr (.inr (.inl hst)))] at hu
    cases hu
    exact ⟨rfl, .inl rfl, le_rfl, le_rfl⟩

/-! ## The status (R99, R100) -/

/-- A notification leaves the status alone, or waits on a full slot with the framebuffer (R197). -/
theorem State.notify_status_cases (s : State) :
    s.notify.status = s.status ∨ (s.slot ≠ none ∧ s.notify.status = .notifyPending s.notify.fb) := by
  obtain ⟨hempty, hfull⟩ := notified_notify s
  by_cases hslot : s.slot = none
  · exact .inl (hempty hslot).2
  · exact .inr ⟨hslot, by rw [(hfull hslot).2, State.notify_fb]⟩

/-- A store from I on leaves the status alone or halts (R53). -/
theorem State.storeFromIndex_status_cases (s : State) (bytes : List Byte) {done : State → State}
    (hdone : ∀ u, (done u).status = u.status) :
    (s.storeFromIndex bytes done).status = s.status ∨ (s.storeFromIndex bytes done).status = .halted := by
  rcases s.storeFromIndex_cases bytes done with h | ⟨bad, h⟩
  · exact .inl (by rw [h, hdone, State.writeBytes_eq])
  · exact .inr (by rw [h, State.raiseData_status])

/-- Settles O58: the frames of the other instructions leave the status out. -/
theorem statusChangesOnlyWhereTheRulesSay : Obligations.StatusChangesOnlyWhereTheRulesSay := by
  intro i s t h
  have hf := congrArg State.status (exec_frame h)
  cases i
  case ldVxK x => cases h; exact .inr (.inl ⟨x, rfl, rfl⟩)
  case cls => cases h; exact (State.notify_status_cases _).imp_right fun hn => .inr (.inl ⟨.inl rfl, hn⟩)
  case drw x y n =>
    simp only [exec, execDrw] at h
    split at h <;> cases h
    · exact (State.notify_status_cases _).imp_right fun hn => .inr (.inl ⟨.inr ⟨x, y, n, rfl⟩, hn⟩)
    · exact .inr (.inr (.inr ⟨rfl, .inr (.inr (.inl ⟨x, y, n, rfl⟩))⟩))
  case ret =>
    simp only [exec, execRet] at h
    split at h <;> cases h
    · exact .inr (.inr (.inr ⟨rfl, .inl rfl⟩))
    · exact .inl rfl
  case call nnn =>
    simp only [exec, execCall] at h
    split at h <;> cases h
    · exact .inr (.inr (.inr ⟨rfl, .inr (.inl ⟨nnn, rfl⟩)⟩))
    · exact .inl rfl
  case ldB x =>
    cases h
    exact (s.storeFromIndex_status_cases _ fun _ => rfl).imp_right fun hh =>
      .inr (.inr ⟨hh, .inr (.inr (.inr ⟨x, .inl rfl⟩))⟩)
  case storeRegs x =>
    cases h
    exact (s.storeFromIndex_status_cases (done := fun t => { t with i := s.indexAfterBlock x }) _ fun _ => rfl).imp_right
      fun hh => .inr (.inr ⟨hh, .inr (.inr (.inr ⟨x, .inr (.inl rfl)⟩))⟩)
  case loadRegs x =>
    simp only [exec, execLoadRegs] at h
    split at h <;> cases h
    · exact .inl (by rw [State.loadBytes_eq])
    · exact .inr (.inr (.inr ⟨rfl, .inr (.inr (.inr ⟨x, .inr (.inr rfl)⟩))⟩))
  all_goals exact .inl hf

end Sys2Proof.Machine
end

section
/-! PROOFS. Control transfer, skips and key tests (spec/41_control_flow.md R110 to R128): the families that select them,
what each does to PC and the stack, and what it leaves unchanged. -/

namespace Sys2Proof

/-- Family E goes on to its second key (R77). -/
theorem decode_of_familyE {w : Half} (hF : fieldF w = 0xE) : decode w = decodeFamilyE (fieldX w) (fieldNN w) := by
  rw [decode, hF]
  rfl

end Sys2Proof

namespace Sys2Proof.Machine

/-! ## Jumps (R111, R121) -/

theorem onlyPc_setPc (s : State) (target : Half) : OnlyPc s { s with pc := target } := ⟨rfl, fun _ => rfl⟩

/-- NNN + V[0] does not wrap in 16 bits (R121). -/
theorem State.jumpTarget_toNat (s : State) (nnn : Addr) :
    (s.jumpTarget nnn).toNat = nnn.toNat + (s.reg 0).toNat := by
  have := nnn.isLt
  have := (s.reg 0).isLt
  simp only [State.jumpTarget, byteOperand, BitVec.toNat_add, addrOperand_toNat, BitVec.toNat_setWidth]
  omega

/-- Settles O22: both jumps write PC alone, and neither target wraps. -/
theorem jumpsSetPc : Obligations.JumpsSetPc := by
  refine ⟨fun w hF => by rw [decode, hF]; rfl, fun w hF => by rw [decode, hF]; rfl, fun s nnn => ⟨?_, ?_⟩⟩
  · exact ⟨_, rfl, onlyPc_setPc s _, addrOperand_toNat nnn⟩
  · exact ⟨_, rfl, onlyPc_setPc s _, s.jumpTarget_toNat nnn, s.jumpTarget_toNat_le nnn⟩

/-! ## Calls and returns (R110, R112, R27) -/

theorem State.stackFull_eq_false_iff (s : State) :
    s.stackFull = false ↔
      s.cfg.stackDepth = .unbounded ∨ ∃ depth, s.cfg.stackDepth = .finite depth ∧ s.stack.length < depth := by
  unfold State.stackFull
  cases s.cfg.stackDepth <;> simp

theorem State.stackFull_of_finite {s : State} {depth : Nat} (hd : s.cfg.stackDepth = .finite depth)
    (hlen : depth ≤ s.stack.length) : s.stackFull = true := by
  simp [State.stackFull, hd, hlen]

theorem exec_call_of_room {s : State} (hroom : s.stackFull = false) (nnn : Addr) :
    exec (.call nnn) s = .next { s with pc := addrOperand nnn, stack := s.pc :: s.stack } := by
  rw [exec, execCall, if_neg (by rw [hroom]; decide)]

theorem exec_call_of_full {s : State} (hfull : s.stackFull = true) (nnn : Addr) :
    exec (.call nnn) s = .next (s.raiseHere .stackOverflow (addrOperand nnn)) := by
  rw [exec, execCall, if_pos hfull]

theorem exec_ret_of_cons {s : State} {target : Half} {rest : List Half} (hs : s.stack = target :: rest) :
    exec .ret s = .next { s with pc := target, stack := rest } := by
  rw [exec, execRet, hs]

theorem exec_ret_of_nil {s : State} (hs : s.stack = []) :
    exec .ret s = .next (s.raiseHere .stackUnderflow 0) := by
  rw [exec, execRet, hs]

/-- The raise of an instruction writes the record and the status, with the address PC - 2 (R211, R214). -/
theorem raisedOnly_raiseHere (s : State) (cause : Cause) (info : Half) :
    RaisedOnly cause (s.pc - 2) info s (s.raiseHere cause info) := ⟨⟨rfl, rfl, rfl, rfl, rfl⟩, rfl, rfl, rfl, rfl⟩

/-- Settles O23, from the two sides of the room check. -/
theorem callPushesReturnAddress : Obligations.CallPushesReturnAddress := by
  refine ⟨fun w hF => by rw [decode, hF]; rfl, fun s nnn => ⟨fun hroom => ?_, fun depth hd hlen => ?_⟩⟩
  · have hexec := exec_call_of_room (s.stackFull_eq_false_iff.mpr hroom) nnn
    exact ⟨_, hexec, rfl, addrOperand_toNat nnn, rfl, fun _ => rfl⟩
  · have hexec := exec_call_of_full (State.stackFull_of_finite hd hlen) nnn
    exact ⟨_, hexec, raisedOnly_raiseHere s _ _, addrOperand_toNat nnn⟩

/-- Settles O24, by the stack's two shapes. -/
theorem returnPopsIntoPc : Obligations.ReturnPopsIntoPc := by
  refine ⟨by decide, fun s => ⟨fun target rest hs => ?_, fun hs => ?_⟩⟩
  · exact ⟨_, exec_ret_of_cons hs, rfl, rfl, rfl, fun _ => rfl⟩
  · exact ⟨_, exec_ret_of_nil hs, raisedOnly_raiseHere s _ _⟩

/-! ## Skips (R113 to R118) -/

theorem onlyPc_skipIf (s : State) (taken : Bool) : OnlyPc s (s.skipIf taken) := onlyPc_setPc s _

theorem State.skipIf_not_pc (s : State) (b : Bool) : (s.skipIf !b).pc = if b then s.pc else s.pc + 2 := by
  cases b <;> rfl

theorem State.skipIf_beq_pc (s : State) (a b : Byte) :
    (s.skipIf (a == b)).pc = if a = b then s.pc + 2 else s.pc := by
  simp only [State.skipIf_pc, beq_iff_eq]

theorem State.skipIf_bne_pc (s : State) (a b : Byte) :
    (s.skipIf (a != b)).pc = if a = b then s.pc else s.pc + 2 := by
  simp only [bne, State.skipIf_not_pc, beq_iff_eq]

/-- Settles O25: each family skips on the equality of two bytes, or on their difference. -/
theorem skipsCompareRegisters : Obligations.SkipsCompareRegisters := by
  refine ⟨fun w hF => by rw [decode, hF]; rfl, fun w hF => by rw [decode, hF]; rfl,
    fun w hF => by rw [decode, hF]; rfl, fun w hF => by rw [decode, hF]; rfl, fun s x y n nn => ⟨?_, ?_, ?_, ?_⟩⟩
  · exact ⟨_, rfl, onlyPc_skipIf s _, s.skipIf_beq_pc _ _⟩
  · exact ⟨_, rfl, onlyPc_skipIf s _, s.skipIf_bne_pc _ _⟩
  · exact ⟨_, rfl, onlyPc_skipIf s _, s.skipIf_beq_pc _ _⟩
  · exact ⟨_, rfl, onlyPc_skipIf s _, s.skipIf_bne_pc _ _⟩

/-! ## Key tests (R126 to R128) -/

/-- Settles O26: a skip of the state after the draw, on the host's answer or its negation. -/
theorem keySkipsFollowTheHostsAnswer : Obligations.KeySkipsFollowTheHostsAnswer := by
  refine ⟨fun w hF hNN => by rw [decode_of_familyE hF, hNN]; rfl,
    fun w hF hNN => by rw [decode_of_familyE hF, hNN]; rfl, fun s x => ⟨?_, ?_⟩⟩
  · exact ⟨_, rfl, rfl, fun _ => rfl, s.drawn.skipIf_pc (s.keyAnswer x)⟩
  · exact ⟨_, rfl, rfl, fun _ => rfl, s.drawn.skipIf_not_pc (s.keyAnswer x)⟩

end Sys2Proof.Machine
end

section
/-! PROOFS. Loads, arithmetic, logic, shifts and random (spec/42_alu.md R130 to R146): the families that select them,
the value each writes to V[X], the flag it writes to VF in the order of R134, and what it leaves unchanged. -/

namespace Sys2Proof

/-- Family 8 goes on to its second key, N (R77). -/
theorem decode_of_family8 {w : Half} {n : Nibble} (hF : fieldF w = 0x8) (hN : fieldN w = n) :
    decode w = decodeFamily8 (fieldX w) (fieldY w) n := by
  rw [decode, hF, hN]
  rfl

end Sys2Proof

namespace Sys2Proof.Machine

/-! ## One register, no flag (R130, R131, R145) -/

/-- A lone register write: the destination holds the value, and it is all that changed. -/
theorem onlyRegs_setReg_and_reg (s : State) (x : Nibble) (b : Byte) :
    OnlyRegs [x] s (s.setReg x b) ∧ (s.setReg x b).reg x = b :=
  ⟨onlyRegs_setReg s x b, s.reg_setReg_self x b⟩

theorem sum_toNat (a b : Byte) : (sum a b).toNat = (a.toNat + b.toNat) % 256 := BitVec.toNat_ofNat _ _

/-- Settles O27: each is a lone write of V[X], of NN or of the wrapped sum. -/
theorem immediateLoadAndAddWriteOnlyTheirDestination : Obligations.ImmediateLoadAndAddWriteOnlyTheirDestination := by
  refine ⟨fun w hF => by rw [decode, hF]; rfl, fun w hF => by rw [decode, hF]; rfl, fun s x nn => ⟨?_, ?_⟩⟩
  · exact ⟨_, rfl, onlyRegs_setReg_and_reg s x nn⟩
  · obtain ⟨honly, hreg⟩ := onlyRegs_setReg_and_reg s x (sum (s.reg x) nn)
    exact ⟨_, rfl, honly, by rw [hreg, sum_toNat]⟩

/-- Settles O32: a lone write of V[X] in the state after the draw. -/
theorem randomByteIsMasked : Obligations.RandomByteIsMasked := by
  refine ⟨fun w hF => by rw [decode, hF]; rfl, fun s x nn => ?_⟩
  exact ⟨_, rfl, s.drawn.reg_setReg_self x _, rfl, sameRegsBut_setReg s.drawn_v x _, fun _ => rfl⟩

/-! ## Register load and logic (R135 to R139) -/

theorem State.writeLogic_of_noReset {s : State} (hcfg : s.cfg.logicResetsVf = false) (x y : Nibble)
    (op : Byte → Byte → Byte) : s.writeLogic x y op = s.setReg x (op (s.reg x) (s.reg y)) := by
  rw [State.writeLogic, if_neg (by rw [hcfg]; decide)]

theorem State.writeLogic_of_reset {s : State} (hcfg : s.cfg.logicResetsVf = true) (x y : Nibble)
    (op : Byte → Byte → Byte) : s.writeLogic x y op = s.writeFlagged x y op false := by
  rw [State.writeLogic, if_pos hcfg]

/-- A logical operation under the two values of LOGIC_RESETS_VF (R135). -/
theorem writeLogic_spec (s : State) (x y : Nibble) (op : Byte → Byte → Byte) :
    (s.cfg.logicResetsVf = false →
      OnlyRegs [x] s (s.writeLogic x y op) ∧ (s.writeLogic x y op).reg x = op (s.reg x) (s.reg y)) ∧
    (s.cfg.logicResetsVf = true → FlaggedWrite x y op false s (s.writeLogic x y op)) := by
  refine ⟨fun hcfg => ?_, fun hcfg => ?_⟩
  · rw [State.writeLogic_of_noReset hcfg]
    exact onlyRegs_setReg_and_reg s x _
  · rw [State.writeLogic_of_reset hcfg]
    exact flaggedWrite_writeFlagged s x y op false

/-- Settles O28: LD is a lone write of V[X], and the three others are one logical operation each. -/
theorem registerLoadAndLogicAndTheirFlag : Obligations.RegisterLoadAndLogicAndTheirFlag := by
  refine ⟨fun _ => decode_of_family8, fun _ => decode_of_family8, fun _ => decode_of_family8,
    fun _ => decode_of_family8, fun s x y => ⟨?_, ?_, ?_, ?_⟩⟩
  · exact ⟨_, rfl, onlyRegs_setReg_and_reg s x (s.reg y)⟩
  · exact ⟨_, rfl, writeLogic_spec s x y (· ||| ·)⟩
  · exact ⟨_, rfl, writeLogic_spec s x y (· &&& ·)⟩
  · exact ⟨_, rfl, writeLogic_spec s x y (· ^^^ ·)⟩

/-! ## Sums and differences (R140, R141, R143) -/

/-- Only the values of the operation matter to a flagged write. -/
theorem FlaggedWrite.congr_op {x y : Nibble} {op op' : Byte → Byte → Byte} {f : Bool} {s t : State}
    (h : FlaggedWrite x y op f s t) (hop : ∀ a b, op a b = op' a b) : FlaggedWrite x y op' f s t :=
  funext₂ hop ▸ h

/-- Settles O29: two flagged writes, whose exact results are BitVec's sum and difference. -/
theorem addSetsCarryAndSubNoBorrow : Obligations.AddSetsCarryAndSubNoBorrow := by
  refine ⟨fun _ => decode_of_family8, fun _ => decode_of_family8, fun s x y => ⟨?_, ?_⟩⟩
  · exact ⟨_, rfl, (flaggedWrite_writeFlagged s x y sum _).congr_op sum_eq⟩
  · exact ⟨_, rfl, (flaggedWrite_writeFlagged s x y difference _).congr_op difference_eq⟩

/-- Settles O30: SUB's flagged write with the operands exchanged. -/
theorem reverseSubtractSetsNoBorrow : Obligations.ReverseSubtractSetsNoBorrow := by
  refine ⟨fun _ => decode_of_family8, fun s x y => ?_⟩
  exact ⟨_, rfl, (flaggedWrite_writeFlagged s x y (fun a b => difference b a) _).congr_op fun a b => difference_eq b a⟩

/-! ## Shifts (R142, R144) -/

/-- Only the values of the shift matter to a shift's write. -/
theorem ShiftWrite.congr_shift {x : Nibble} {src : Byte} {shift shift' : Byte → Byte} {f : Bool} {s t : State}
    (h : ShiftWrite x src shift f s t) (hshift : ∀ a, shift a = shift' a) : ShiftWrite x src shift' f s t :=
  funext hshift ▸ h

/-- Settles O31: both shifts work on the register the quirk selects, and lose its bit 0 or its bit 7. -/
theorem shiftsFollowTheQuirk : Obligations.ShiftsFollowTheQuirk := by
  refine ⟨fun _ => decode_of_family8, fun _ => decode_of_family8, fun s x y src hsrc => ⟨?_, ?_⟩⟩
  · have hshift := (shiftWrite_writeFlagged s x y shiftedRight lowBit).congr_shift shiftedRight_eq
    rw [← hsrc, lowBit_eq src] at hshift
    exact ⟨_, rfl, hshift⟩
  · have hshift := (shiftWrite_writeFlagged s x y shiftedLeft highBit).congr_shift shiftedLeft_eq
    rw [← hsrc, highBit_eq src] at hshift
    exact ⟨_, rfl, hshift⟩

end Sys2Proof.Machine
end

section
/-! PROOFS. The index register and memory transfers (spec/43_index_memory.md R160 to R166): the words that select them,
the value I takes, the bytes or registers each writes where every address exists, and what it leaves unchanged. -/

namespace Sys2Proof

/-- Family F goes on to its second key, NN (R77). -/
theorem decode_of_familyF {w : Half} {nn : Byte} (hF : fieldF w = 0xF) (hNN : fieldNN w = nn) :
    decode w = decodeFamilyF (fieldX w) nn := by
  rw [decode, hF, hNN]
  rfl

end Sys2Proof

namespace Sys2Proof.Machine

/-! ## The index register (R160 to R162) -/

theorem onlyIndex_setIndex (s : State) (i : Half) : OnlyIndex s { s with i := i } := ⟨rfl, fun _ => rfl⟩

/-- The mask of R162 takes the value mod 16, and the last glyph's address, 125, fits. -/
theorem fontAddress_toNat (b : Byte) : (fontAddress b).toNat = 50 + 5 * (b.toNat % 16) := by
  have hmask : (b &&& 0xF).toNat = b.toNat % 16 :=
    (BitVec.toNat_and b 0xF).trans (Nat.and_two_pow_sub_one_eq_mod b.toNat 4)
  simp only [fontAddress, hmask, fontBase, fontGlyphBytes, BitVec.toNat_ofNat]
  omega

/-- Settles O33: both write I alone, and neither address wraps. -/
theorem indexLoads : Obligations.IndexLoads := by
  refine ⟨fun w hF => by rw [decode, hF]; rfl, fun _ => decode_of_familyF, fun s nnn x => ⟨?_, ?_⟩⟩
  · exact ⟨_, rfl, onlyIndex_setIndex s _, addrOperand_toNat nnn⟩
  · exact ⟨_, rfl, onlyIndex_setIndex s _, fontAddress_toNat (s.reg x)⟩

theorem indexSum_toNat (i : Half) (b : Byte) : (indexSum i b).toNat = (i.toNat + b.toNat) % 65536 :=
  BitVec.toNat_ofNat _ _

theorem flagByte_indexOverflow (i : Half) (b : Byte) :
    flagByte (indexOverflow i b) = if 0xFFF < i.toNat + b.toNat then 1 else 0 := by
  simp only [flagByte, indexOverflow, decide_eq_true_eq]

/-- Settles O34: a lone write of VF in the state with the new I, both values being of the old V[X]. -/
theorem addIndexSetsOverflow : Obligations.AddIndexSetsOverflow := by
  refine ⟨fun _ => decode_of_familyF, fun s x => ⟨_, rfl, indexSum_toNat s.i (s.reg x), ?_, rfl, ?_, fun _ => rfl⟩⟩
  · rw [State.reg_setReg_self, flagByte_indexOverflow]
  · exact sameRegsBut_setReg (s := s) rfl vf _

/-! ## Stores where every address exists (R163, R164) -/

/-- A sequence that fits is stored byte by byte. -/
theorem State.readByte_writeBytes_at {s : State} (hs : s.MemoryCanonical) {base : Nat} {bytes : List Byte}
    (hfits : base + bytes.length ≤ memSize) {k : Nat} (hk : k < bytes.length) :
    (s.writeBytes (fun _ => true) base 0 bytes).readByte (base + k) = bytes[k] := by
  rw [State.readByte_writeBytes _ _ _ 0 hs, dif_pos ⟨by omega, by omega, by omega, rfl⟩]
  simp only [Nat.add_sub_cancel_left, Nat.sub_zero]

/-- No byte before or after a stored sequence changes. -/
theorem State.readByte_writeBytes_outside {s : State} (hs : s.MemoryCanonical) (lands : Nat → Bool) {base : Nat}
    {bytes : List Byte} {a : Nat} (ha : a < base ∨ base + bytes.length ≤ a) :
    (s.writeBytes lands base 0 bytes).readByte a = s.readByte a := by
  rw [State.readByte_writeBytes _ _ _ 0 hs, dif_neg (by omega)]

@[simp] theorem length_decimalDigits (b : Byte) : (decimalDigits b).length = 3 := rfl

/-- No digit wraps in its byte (R163). -/
theorem decimalDigits_toNat (b : Byte) :
    ((decimalDigits b)[0]'(by simp)).toNat = b.toNat / 100 ∧
    ((decimalDigits b)[1]'(by simp)).toNat = b.toNat / 10 % 10 ∧
    ((decimalDigits b)[2]'(by simp)).toNat = b.toNat % 10 := by
  have := b.isLt
  simp only [decimalDigits, List.getElem_cons_zero, List.getElem_cons_succ, BitVec.toNat_ofNat]
  omega

theorem exec_ldB_of_inRange {s : State} (x : Nibble) (hend : s.i.toNat + 2 < 4096) :
    exec (.ldB x) s = .next (s.writeBytes (fun _ => true) s.i.toNat 0 (decimalDigits (s.reg x))) :=
  congrArg _ (s.storeFromIndex_of_inRange (decimalDigits (s.reg x)) id hend)

/-- Settles O35: the stored sequence is the three digits, and a sequence of stores changes memory alone. -/
theorem decimalDigitsAreStored : Obligations.DecimalDigitsAreStored := by
  refine ⟨fun _ => decode_of_familyF, fun s x hs hend => ?_⟩
  obtain ⟨hhundreds, htens, hunits⟩ := decimalDigits_toNat (s.reg x)
  have hbyte {k : Nat} (hk : k < 3) :=
    State.readByte_writeBytes_at hs (bytes := decimalDigits (s.reg x)) hend hk
  refine ⟨_, exec_ldB_of_inRange x hend, ?_, ?_, ?_, State.writeBytes_eq _ _ _ _ s, fun a ha => ?_⟩
  · exact (congrArg BitVec.toNat (hbyte (k := 0) (by decide))).trans hhundreds
  · exact (congrArg BitVec.toNat (hbyte (k := 1) (by decide))).trans htens
  · exact (congrArg BitVec.toNat (hbyte (k := 2) (by decide))).trans hunits
  · exact State.readByte_writeBytes_outside hs _ (bytes := decimalDigits (s.reg x)) ha

theorem exec_storeRegs_of_inRange {s : State} {x : Nibble} (hend : s.i.toNat + x.toNat < 4096) :
    exec (.storeRegs x) s =
      .next { s.writeBytes (fun _ => true) s.i.toNat 0 (s.regsTo x) with i := s.indexAfterBlock x } :=
  congrArg _ (s.storeFromIndex_of_inRange (s.regsTo x) _ (by rw [State.length_regsTo]; exact hend))

/-- I moves on by the block's length under STORE_LOAD_INCREMENTS_I; up to address 4096 it does not wrap (R166). -/
theorem State.indexAfterBlock_toNat {s : State} {x : Nibble} (hend : s.i.toNat + x.toNat < 4096) :
    (s.indexAfterBlock x).toNat =
      if s.cfg.storeLoadIncrementsI then s.i.toNat + x.toNat + 1 else s.i.toNat := by
  unfold State.indexAfterBlock
  split
  · simp only [blockLength, BitVec.toNat_ofNat]
    omega
  · rfl

/-- Settles O36: the bytes of the stored sequence are V[0] to V[X], and I is set after it. -/
theorem blockStoreWritesRegisters : Obligations.BlockStoreWritesRegisters := by
  refine ⟨fun _ => decode_of_familyF, fun s x hs hend => ?_⟩
  have hexec := exec_storeRegs_of_inRange hend
  have hlen : (s.regsTo x).length = x.toNat + 1 := s.length_regsTo x
  refine ⟨_, hexec, fun r hr => readByte_exec_storeRegs hs hexec hend hr, fun a ha => ?_,
    State.indexAfterBlock_toNat hend, ?_⟩
  · exact State.readByte_writeBytes_outside hs (fun _ => true) (bytes := s.regsTo x) (by omega)
  · rw [State.writeBytes_eq]

/-! ## Loads where every address exists (R165) -/

theorem exec_loadRegs_of_inRange {s : State} {x : Nibble} (hend : s.i.toNat + x.toNat < 4096) :
    exec (.loadRegs x) s =
      .next { s.loadBytes (fun _ => true) s.i.toNat (blockLength x) with i := s.indexAfterBlock x } := by
  simp only [exec, execLoadRegs, firstOutOfRange_eq_none (.inr (show s.i.toNat + blockLength x ≤ memSize from hend))]

/-- Settles O37: V[0] to V[X] are loaded in order, each from a byte that exists, and I is set after them. -/
theorem blockLoadReadsRegisters : Obligations.BlockLoadReadsRegisters := by
  refine ⟨fun _ => decode_of_familyF, fun s x hend =>
    ⟨_, exec_loadRegs_of_inRange hend, fun r => ?_, State.indexAfterBlock_toNat hend, ?_,
      State.readByte_loadBytes (fun _ => true) _ _ s⟩⟩
  · refine (State.reg_loadBytes (fun _ => true) s.i.toNat (n := blockLength x) x.isLt s r).trans (if_congr ?_ rfl rfl)
    have hlen : blockLength x = x.toNat + 1 := rfl
    constructor
    · rintro ⟨hr, -, -⟩
      omega
    · exact fun hr => ⟨by omega, show _ < 4096 by omega, rfl⟩
  · rw [State.loadBytes_eq]

end Sys2Proof.Machine
end

section
/-! PROOFS. Timer access and the key wait (spec/44_timers_input.md R180 to R184): what FX07, FX15 and FX18 move, how FX0A
suspends the engine, and how the host's answer resumes it. -/

namespace Sys2Proof.Machine

/-! ## Timer access (R180 to R182) -/

/-- Settles O40: a lone write of V[X], of DT or of ST. -/
theorem timerAccessesMoveOneValue : Obligations.TimerAccessesMoveOneValue := by
  refine ⟨fun _ => decode_of_familyF, fun _ => decode_of_familyF, fun _ => decode_of_familyF,
    fun s x => ⟨?_, ?_, ?_⟩⟩
  · exact ⟨_, rfl, onlyRegs_setReg_and_reg s x s.dt⟩
  · exact ⟨_, rfl, rfl, rfl, fun _ => rfl⟩
  · exact ⟨_, rfl, rfl, rfl, fun _ => rfl⟩

/-! ## The key wait (R183, R184) -/

/-- Settles O41: FX0A writes the status alone. -/
theorem keyWaitSuspends : Obligations.KeyWaitSuspends :=
  ⟨fun _ => decode_of_familyF, fun _ _ => ⟨_, rfl, rfl, rfl, fun _ => rfl⟩⟩

/-- The next event of another agent is a step of its own (R221). -/
theorem step_of_event {s : State} {e : Event} {rest : List Event} (henv : s.env = e :: rest) :
    step s = .next (({ s with env := rest } : State).applyEvent e) := by
  rw [step, State.machineStep, henv]

/-- The key an engine in WAIT_KEY(x) is given goes to V[x], and the engine runs again (R184). -/
theorem State.answerKey_of_waitKey {s : State} {x : Nibble} (hst : s.status = .waitKey x) (key : Nibble) :
    s.answerKey key = { s.setReg x (key.setWidth 8) with status := .running } := by
  rw [State.answerKey, hst]

/-- Settles O7: the answer is a lone write of V[x], with RUNNING, in the state past the event. -/
theorem keyAnswerResumesEngine : Obligations.KeyAnswerResumesEngine := by
  intro s x key rest hst henv
  have hstep : step s =
      .next { ({ s with env := rest } : State).setReg x (key.setWidth 8) with status := .running } :=
    (step_of_event henv).trans (congrArg _ (State.answerKey_of_waitKey (s := { s with env := rest }) hst key))
  refine ⟨_, hstep, rfl, ?_, rfl, ?_, fun _ => rfl⟩
  · exact (congrArg BitVec.toNat (State.reg_setReg_self _ x _)).trans (BitVec.toNat_setWidth_of_le (by decide))
  · exact sameRegsBut_setReg (s := s) (u := { s with env := rest }) rfl x _

end Sys2Proof.Machine
end

section
/-! PROOFS. The display (spec/45_display.md R190 to R200): the notification and the snapshot that waits for its slot, clear
screen, the source's row compositions, and the sprite draw with and without all of its bytes. -/

namespace Sys2Proof.Machine

/-! ## The notification and the waiting snapshot (R197, R199) -/

/-- A notification from a state with the slot and the status of s is one sent from s (R197). -/
theorem notified_of_notify {s u : State} (hslot : u.slot = s.slot) (hst : u.status = s.status) :
    Notified s u.notify := by
  rw [Notified, u.notify_fb, ← hslot, ← hst]
  exact notified_notify u

/-- The engine's turn in NOTIFY_PENDING on an empty slot places the snapshot (R197). -/
theorem State.engineTurn_of_placeable {s : State} {frame : Frame} (hl : s.loading = false)
    (hst : s.status = .notifyPending frame) (hslot : s.slot = none) :
    s.engineTurn = .next { s with slot := some frame, status := .running } := by
  simp [State.engineTurn, State.placePending, hl, hst, hslot]

/-- Settles O8: the placing turn, then the end of the engine's turn. -/
theorem pendingSnapshotIsPlaced : Obligations.PendingSnapshotIsPlaced := by
  intro s frame henv hl hst hslot
  exact ⟨_, by rw [step_of_noEvent henv, State.engineTurn_of_placeable hl hst hslot, endTurn], rfl, rfl, rfl⟩

/-- No event sets a snapshot waiting: the status stays or the engine is RUNNING (R184, R240). -/
theorem State.applyEvent_status_cases (s : State) (e : Event) :
    (s.applyEvent e).status = s.status ∨ (s.applyEvent e).status = .running := by
  cases e with
  | tickDelay | tickSound | takeFrame | run => exact .inl rfl
  | answerKey key => rw [State.applyEvent, State.answerKey]; cases hst : s.status <;> simp [hst]
  | init => exact .inr rfl
  | loadByte addr data => rw [State.applyEvent, State.loadByte_eq]; exact .inl rfl

/-- Nothing waits where the status is not NOTIFY_PENDING. -/
theorem pendingIsFramebuffer_of_status_ne {t : State} (h : ∀ frame, t.status ≠ .notifyPending frame) :
    t.PendingIsFramebuffer := fun frame hst => absurd hst (h frame)

theorem pendingIsFramebuffer_applyEvent {s : State} (hs : s.PendingIsFramebuffer) (e : Event) :
    (s.applyEvent e).PendingIsFramebuffer := by
  by_cases he : e = .init
  · subst he
    exact pendingIsFramebuffer_of_status_ne nofun
  · rcases s.applyEvent_status_cases e with hst | hst
    · rw [State.PendingIsFramebuffer, hst, (quietStep_applyEvent s he).fb]
      exact hs
    · exact pendingIsFramebuffer_of_status_ne fun _ => by simp [hst]

/-- The only instructions that set a snapshot waiting take it from their own framebuffer (R197, R199). -/
theorem pendingIsFramebuffer_exec {i : Instr} {s t : State} (hs : s.status = .running) (h : exec i s = .next t) :
    t.PendingIsFramebuffer := by
  intro frame hframe
  rcases statusChangesOnlyWhereTheRulesSay i s t h with hst | ⟨x, -, hst⟩ | ⟨-, -, hst⟩ | ⟨hst, -⟩ <;>
    rw [hframe] at hst
  · simp [hs] at hst
  · cases hst
  · injection hst
  · cases hst

/-- Settles O50: an event never touches the screen of a waiting engine but by init, and an executing engine has no
snapshot waiting before its instruction. -/
theorem stepKeepsPendingSnapshot : Obligations.StepKeepsPendingSnapshot := by
  intro s t hs h
  rcases step_cases h with ⟨e, rest, -, rfl⟩ | ⟨-, u, hu, rfl⟩
  · exact pendingIsFramebuffer_applyEvent (s := { s with env := rest }) hs e
  · rcases State.engineTurn_cases hu with ⟨rfl, -⟩ | ⟨frame, -, -, -, rfl⟩ | ⟨-, -, -, rfl⟩ | ⟨-, hst, -, hx⟩
    · exact hs
    · exact pendingIsFramebuffer_of_status_ne nofun
    · exact pendingIsFramebuffer_of_status_ne nofun
    · exact (pendingIsFramebuffer_exec (s := s.advance) hst hx :)

/-! ## Clear screen (R190) -/

/-- Settles O42: a notification of the state with the blank screen. -/
theorem clearScreenBlanksAndNotifies : Obligations.ClearScreenBlanksAndNotifies := by
  refine ⟨by decide, fun s => ⟨_, rfl, fun c r _ _ => ?_, notified_of_notify rfl rfl, ?_, fun a => ?_⟩⟩
  · rw [State.notify_fb, Frame.get_blank]
  · exact exec_frame (i := .cls) rfl
  · exact State.readByte_notify _ a

/-! ## One row on the screen (R194, R200) -/

theorem spritePixel_xor (a b : Byte) (k : Nat) : spritePixel (a ^^^ b) k = (spritePixel a k ^^ spritePixel b k) :=
  BitVec.getLsbD_xor

/-- A row's k-th pixel is bit 7 - k of its byte. -/
theorem rowAt_add (b : Byte) (c r : Nat) {k : Nat} (hk : k < 8) : rowAt b c r (c + k) r = spritePixel b k := by
  simp [rowAt, spritePixel, hk]

/-- On the screen a row that holds the byte a holds a XOR b once b is composed onto it (R194). -/
theorem get_composeRow_onto {f : Frame} {c r : Nat} (hc : c + 8 ≤ 64) (hr : r < 32) {a : Byte} (b : Byte)
    (hold : ∀ k, k < 8 → Frame.get f (c + k) r = spritePixel a k) :
    ∀ k, k < 8 → Frame.get (composeRow b c r (f, false)).1 (c + k) r = spritePixel (a ^^^ b) k := by
  intro k hk
  rw [Frame.get_composeRow b c r _ (by omega) hr, hold k hk, rowAt_add b c r hk, spritePixel_xor]

/-- Composing b onto a row that holds the byte a collides where a and b have a common bit (R192). -/
theorem composeRow_flag_onto {f : Frame} {c r : Nat} {a : Byte} (b : Byte)
    (hold : ∀ k, k < 8 → Frame.get f (c + k) r = spritePixel a k) :
    (composeRow b c r (f, false)).2 = true ↔ ∃ k < 8, spritePixel b k = true ∧ spritePixel a k = true := by
  rw [composeRow, composeRow_flag_upto]
  constructor
  · rintro (h | ⟨k, hk, hb, ha⟩)
    · cases h
    · exact ⟨k, hk, hb, hold k hk ▸ ha⟩
  · rintro ⟨k, hk, hb, ha⟩
    exact .inr ⟨k, hk, hb, (hold k hk).trans ha⟩

/-- Settles O45: the XOR of the two bytes, and their common bits. -/
theorem rowCompositionExamples : Obligations.RowCompositionExamples := by
  refine fun f c r hc hr => ⟨fun hold => ⟨get_composeRow_onto hc hr _ hold, ?_⟩,
    fun hold => ⟨get_composeRow_onto hc hr _ hold, ?_⟩⟩
  · exact (composeRow_flag_onto _ hold).mpr (by decide)
  · exact Bool.eq_false_iff.mpr ((composeRow_flag_onto _ hold).not.mpr (by decide))

/-! ## The sprite on the screen (R192 to R195) -/

/-- A lit pixel of the sprite, on the screen, meets a pixel that is on (R192). -/
def State.Collides (s : State) (n c0 r0 : Nat) : Prop :=
  ∃ c r, c < 64 ∧ r < 32 ∧ s.spriteAt n c0 r0 c r = true ∧ Frame.get s.fb c r = true

/-- Every pixel a draw composes: XORed with the sprite's, where the row's byte exists. -/
theorem State.get_composed (s : State) (x y n : Nibble) {c r : Nat} (hc : c < 64) (hr : r < 32) :
    Frame.get (s.composed x y n).1 c r =
      (Frame.get s.fb c r ^^ (decide (s.i.toNat + (r - s.spriteRow y) < memSize) &&
        s.spriteAt n.toNat (s.spriteColumn x) (s.spriteRow y) c r)) := by
  rw [State.composed, Frame.get_composeSprite _ _ _ _ hc hr, State.spriteRowsAt_readBytes]

/-- A draw's flag: a lit pixel of a row whose byte exists met a pixel that was on. -/
theorem State.composed_flag (s : State) (x y n : Nibble) :
    (s.composed x y n).2 = true ↔ ∃ c r, s.i.toNat + (r - s.spriteRow y) < memSize ∧
      s.spriteAt n.toNat (s.spriteColumn x) (s.spriteRow y) c r = true ∧ Frame.get s.fb c r = true := by
  simp [State.composed, composeSprite_flag, State.spriteRowsAt_readBytes, and_assoc]

/-- A pixel that is on is on the screen. -/
theorem Frame.onScreen_of_get {f : Frame} {c r : Nat} (h : Frame.get f c r = true) : c < 64 ∧ r < 32 := by
  by_contra hout
  simp [Frame.get_outside f hout] at h

/-- A flag that is set is a collision of the sprite. -/
theorem State.collides_of_composed_flag {s : State} {x y n : Nibble} (h : (s.composed x y n).2 = true) :
    s.Collides n.toNat (s.spriteColumn x) (s.spriteRow y) := by
  obtain ⟨c, r, -, hlit, hon⟩ := (s.composed_flag x y n).mp h
  exact ⟨c, r, (Frame.onScreen_of_get hon).1, (Frame.onScreen_of_get hon).2, hlit, hon⟩

/-- Every lit pixel of a sprite whose bytes exist is in a row whose byte exists. -/
theorem State.rowExists_of_spriteAt {s : State} {n c0 r0 c r : Nat} (hend : n = 0 ∨ s.i.toNat + n ≤ memSize)
    (hlit : s.spriteAt n c0 r0 c r = true) : s.i.toNat + (r - r0) < memSize := by
  simp only [State.spriteAt, Bool.and_eq_true, decide_eq_true_eq] at hlit
  omega

/-! ## The draw where every byte exists (R191 to R197) -/

theorem State.get_composed_of_inRange {s : State} {x y n : Nibble} (hend : n.toNat = 0 ∨ s.i.toNat + n.toNat ≤ memSize)
    {c r : Nat} (hc : c < 64) (hr : r < 32) :
    Frame.get (s.composed x y n).1 c r =
      (Frame.get s.fb c r ^^ s.spriteAt n.toNat (s.spriteColumn x) (s.spriteRow y) c r) := by
  rw [s.get_composed x y n hc hr]
  cases hlit : s.spriteAt n.toNat (s.spriteColumn x) (s.spriteRow y) c r
  · rw [Bool.and_false]
  · rw [decide_eq_true (State.rowExists_of_spriteAt hend hlit), Bool.and_true]

theorem State.composed_flag_iff_collides {s : State} {x y n : Nibble}
    (hend : n.toNat = 0 ∨ s.i.toNat + n.toNat ≤ memSize) :
    (s.composed x y n).2 = true ↔ s.Collides n.toNat (s.spriteColumn x) (s.spriteRow y) := by
  refine ⟨State.collides_of_composed_flag, fun ⟨c, r, _, _, hlit, hon⟩ => ?_⟩
  exact (s.composed_flag x y n).mpr ⟨c, r, State.rowExists_of_spriteAt hend hlit, hlit, hon⟩

/-- s with the composed screen and its flag in VF, before the notification. -/
def State.drawnSprite (s : State) (x y n : Nibble) : State :=
  ({ s with fb := (s.composed x y n).1 } : State).setReg vf (flagByte (s.composed x y n).2)

theorem exec_drw_of_inRange {s : State} {x y n : Nibble} (hend : n.toNat = 0 ∨ s.i.toNat + n.toNat ≤ memSize) :
    exec (.drw x y n) s = .next (s.drawnSprite x y n).notify := by
  simp only [exec, execDrw, firstOutOfRange_eq_none hend, State.drawnSprite]

theorem State.reg_vf_notify_drawnSprite (s : State) (x y n : Nibble) :
    (s.drawnSprite x y n).notify.reg vf = flagByte (s.composed x y n).2 := by
  rw [State.reg_notify, State.drawnSprite, State.reg_setReg_self]

/-- A draw without a fault leaves everything but VF, the screen and the notification alone. -/
theorem onlyDrawn_notify_drawnSprite (s : State) (x y n : Nibble) : OnlyDrawn s (s.drawnSprite x y n).notify := by
  refine ⟨?_, fun r hr => ?_, fun a => ?_⟩
  · rw [State.notify_eq]; rfl
  · rw [State.reg_notify]; exact sameRegsBut_setReg (s := s) (by rfl) vf _ r hr
  · rw [State.readByte_notify]; rfl

/-- Settles O43: the composed screen and its flag, then one notification. -/
theorem drawXorsSpriteAndNotifies : Obligations.DrawXorsSpriteAndNotifies := by
  refine ⟨fun w hF => by rw [decode, hF]; rfl, ?_⟩
  rintro s x y n _ _ rfl rfl hend
  have hend : n.toNat = 0 ∨ s.i.toNat + n.toNat ≤ memSize := hend.imp_left (congrArg BitVec.toNat)
  have hflag := State.composed_flag_iff_collides (x := x) (y := y) hend
  refine ⟨_, exec_drw_of_inRange hend, fun c r hc hr => ?_, fun hmet => ?_, fun hmet => ?_,
    notified_of_notify (by rfl) (by rfl), onlyDrawn_notify_drawnSprite s x y n⟩
  · rw [State.notify_fb]
    exact State.get_composed_of_inRange hend hc hr
  · rw [State.reg_vf_notify_drawnSprite, hflag.mpr hmet]; rfl
  · rw [State.reg_vf_notify_drawnSprite, Bool.eq_false_iff.mpr (hflag.not.mpr hmet)]; rfl

/-! ## The draw past 4095 (R196, R215) -/

/-- s with some composed pixels and with VF as a stopped draw leaves it, before the raise. -/
def State.partlyDrawn (s : State) (x y n : Nibble) : State :=
  ({ s with fb := Frame.blend (Config.holdsNew s.draws) s.fb (s.composed x y n).1 } : State).setReg vf
    (s.vfAfterStoppedDraw (s.composed x y n).2)

theorem State.partlyDrawn_fb (s : State) (x y n : Nibble) :
    (s.partlyDrawn x y n).fb = Frame.blend (Config.holdsNew s.draws) s.fb (s.composed x y n).1 := rfl

theorem sameRegsBut_partlyDrawn (s : State) (x y n : Nibble) : SameRegsBut [vf] s (s.partlyDrawn x y n) :=
  sameRegsBut_setReg (by rfl) vf _

theorem State.partlyDrawn_reg_vf (s : State) (x y n : Nibble) :
    (s.partlyDrawn x y n).reg vf = s.vfAfterStoppedDraw (s.composed x y n).2 := State.reg_setReg_self _ vf _

theorem exec_drw_of_pastEnd {s : State} {x y n : Nibble} (hn : 0 < n.toNat) (hend : memSize < s.i.toNat + n.toNat) :
    exec (.drw x y n) s = .next ((s.partlyDrawn x y n).raiseData (max s.i.toNat memSize)) := by
  simp only [exec, execDrw, firstOutOfRange_eq_some hn hend, State.partlyDrawn]

/-- Each pixel of a stopped draw is the old one or XORed with the sprite's (R215). -/
theorem State.get_partlyDrawn_cases (s : State) (x y n : Nibble) {c r : Nat} (hc : c < 64) (hr : r < 32) :
    Frame.get (s.partlyDrawn x y n).fb c r = Frame.get s.fb c r ∨
      Frame.get (s.partlyDrawn x y n).fb c r =
        (Frame.get s.fb c r ^^ s.spriteAt n.toNat (s.spriteColumn x) (s.spriteRow y) c r) := by
  rw [State.partlyDrawn_fb, Frame.get_blend _ _ _ hc hr]
  split
  · rw [s.get_composed x y n hc hr]
    cases decide (s.i.toNat + (r - s.spriteRow y) < memSize)
    · exact .inl (by rw [Bool.false_and, Bool.xor_false])
    · exact .inr (by rw [Bool.true_and])
  · exact .inl rfl

/-- VF after a stopped draw: its old value, the reset's 0, or 1 after a collision (log 8). -/
theorem State.vfAfterStoppedDraw_cases (s : State) (collided : Bool) :
    s.vfAfterStoppedDraw collided = s.reg vf ∨ s.vfAfterStoppedDraw collided = 0 ∨
      (s.vfAfterStoppedDraw collided = 1 ∧ collided = true) := by
  unfold State.vfAfterStoppedDraw
  split
  · cases collided <;> cases Config.holdsNew s.draws 2049 <;> simp [flagByte]
  · exact .inl rfl

/-- A stopped draw is a raise at its own address that leaves PC, I, the slot and memory alone (R211, R214). -/
theorem raised_raiseData_partlyDrawn (s : State) (x y n : Nibble) (bad : Nat) :
    Raised .dataOutOfRange (s.pc - 2) (BitVec.ofNat 16 bad) s ((s.partlyDrawn x y n).raiseData bad) :=
  ⟨rfl, rfl, rfl, rfl, rfl⟩

/-- Settles O44: some composed pixels and a free choice of VF, then the raise at the first address past the end. -/
theorem drawPastEndHalts : Obligations.DrawPastEndHalts := by
  rintro s x y n _ _ rfl rfl hn hend
  have hn : 0 < n.toNat := Nat.pos_of_ne_zero fun h0 => hn (BitVec.eq_of_toNat_eq h0)
  refine ⟨_, exec_drw_of_pastEnd hn hend, raised_raiseData_partlyDrawn s x y n _, rfl, fun r hr => ?_,
    fun c r hc hr => s.get_partlyDrawn_cases x y n hc hr, ?_⟩
  · exact (State.reg_raiseData _ _ r).trans (sameRegsBut_partlyDrawn s x y n r hr)
  · rw [State.reg_raiseData, State.partlyDrawn_reg_vf]
    exact (s.vfAfterStoppedDraw_cases _).imp_right (Or.imp_right (And.imp_right State.collides_of_composed_flag))

end Sys2Proof.Machine
end

section
/-! PROOFS. The other agents (spec/60_exceptions.md R220 to R228): a run through a list of events, the timers' ticks,
the host's events, and the output ports. -/

namespace Sys2Proof.Machine

/-! ## A run through the events of the other agents (R221) -/

/-- No event reads or writes the events that follow it. -/
theorem State.applyEvent_setEnv (s : State) (e : Event) (rest : List Event) :
    ({ s with env := rest } : State).applyEvent e = { s.applyEvent e with env := rest } := by
  cases e with
  | tickDelay | tickSound | takeFrame | init | run => rfl
  | answerKey key => cases hst : s.status <;> simp [State.applyEvent, State.answerKey, State.setReg, hst]
  | loadByte addr data => cases hl : s.loading <;> simp [State.applyEvent, State.loadByte, State.writeByte, hl]

theorem run_succ_of_step {M : Host.Core} {s t : M.State} (h : M.step s = .next t) (n : Nat) :
    M.run (n + 1) s = M.run n t := by
  rw [Host.Core.run, h]

/-- As many steps as there are events before `rest` apply these events in order, whatever the engine's status. -/
theorem run_of_events {n : Nat} {es : List Event} (hn : es.length = n) {s : State} {rest : List Event}
    (henv : s.env = es ++ rest) :
    Host.Core.run Sys2Proof.core n s = .next (es.foldl State.applyEvent { s with env := rest }) := by
  subst hn
  induction es generalizing s with
  | nil => subst henv; rfl
  | cons e es ih =>
    have hstep : step s = .next { s.applyEvent e with env := es ++ rest } :=
      (step_of_event henv).trans (congrArg _ (s.applyEvent_setEnv e _))
    calc Host.Core.run Sys2Proof.core (es.length + 1) s
      _ = Host.Core.run Sys2Proof.core es.length ({ s.applyEvent e with env := es ++ rest } : State) :=
        run_succ_of_step hstep _
      _ = .next (es.foldl State.applyEvent { s.applyEvent e with env := rest }) := ih rfl
      _ = .next ((e :: es).foldl State.applyEvent { s with env := rest }) :=
        congrArg (Host.Outcome.next <| es.foldl State.applyEvent ·) (s.applyEvent_setEnv e rest).symm

/-! ## Ticks (R220) -/

/-- Settles O9: one tick, in the state past the event. -/
theorem tickDecrementsOneTimer : Obligations.TickDecrementsOneTimer := by
  intro s rest
  refine ⟨fun henv => ?_, fun henv => ?_⟩
  · exact ⟨_, step_of_event henv, tick_toNat s.dt, rfl⟩
  · exact ⟨_, step_of_event henv, tick_toNat s.st, rfl⟩

theorem iterate_tick_toNat (n : Nat) (b : Byte) : (tick^[n] b).toNat = b.toNat - n := by
  induction n with
  | zero => rfl
  | succ n ih => rw [Function.iterate_succ_apply', tick_toNat, ih, Nat.sub_sub]

theorem iterate_tick_eq_zero {n : Nat} {b : Byte} (h : b.toNat ≤ n) : tick^[n] b = 0 :=
  BitVec.eq_of_toNat_eq ((iterate_tick_toNat n b).trans (Nat.sub_eq_zero_of_le h))

theorem State.foldl_tickDelay (s : State) (n : Nat) :
    (List.replicate n .tickDelay).foldl State.applyEvent s = { s with dt := tick^[n] s.dt } := by
  induction n generalizing s with
  | zero => rfl
  | succ n ih => exact ih (s.applyEvent .tickDelay)

theorem State.foldl_tickSound (s : State) (n : Nat) :
    (List.replicate n .tickSound).foldl State.applyEvent s = { s with st := tick^[n] s.st } := by
  induction n generalizing s with
  | zero => rfl
  | succ n ih => exact ih (s.applyEvent .tickSound)

/-- Settles O10: n ticks apply the tick n times to the one timer. -/
theorem timerReachesZeroAfterItsTicks : Obligations.TimerReachesZeroAfterItsTicks := by
  intro n s rest
  refine ⟨fun henv hn => ?_, fun henv hn => ?_⟩
  · exact ⟨_, (run_of_events List.length_replicate henv).trans (congrArg _ (State.foldl_tickDelay _ n)),
      iterate_tick_eq_zero hn, rfl⟩
  · exact ⟨_, (run_of_events List.length_replicate henv).trans (congrArg _ (State.foldl_tickSound _ n)),
      iterate_tick_eq_zero hn, rfl⟩

/-! ## The host's events (R225, R228, R241) -/

/-- The load port is open until `run` (R228). -/
theorem State.loadByte_of_loading {s : State} (hl : s.loading = true) (addr : Addr) (data : Byte) :
    s.loadByte addr data = s.writeByte addr.toNat data := by
  rw [State.loadByte, if_pos hl]

/-- Settles O12: each event's effect, in the state past the event; a load write in the load phase is a write of one byte
that exists. -/
theorem hostEventsDoOnlyTheirEffect : Obligations.HostEventsDoOnlyTheirEffect := by
  intro s rest
  refine ⟨step_of_event, step_of_event, fun addr data henv => ⟨fun hl => ?_, fun hl hs => ?_⟩⟩
  · exact (step_of_event henv).trans
      (congrArg _ (State.loadByte_of_not_loading (s := { s with env := rest }) hl addr data))
  · have hstep : step s = .next (({ s with env := rest } : State).writeByte addr.toNat data) :=
      (step_of_event henv).trans
        (congrArg _ (State.loadByte_of_loading (s := { s with env := rest }) hl addr data))
    refine ⟨_, hstep, rfl, fun a => ?_⟩
    rw [State.readByte_writeByte (s := { s with env := rest }) hs]
    exact if_congr (and_iff_left addr.isLt) rfl rfl

/-! ## The output ports (R228) -/

theorem State.outputs_dispValid_iff (s : State) : s.outputs.dispValid = true ↔ s.slot ≠ none := by
  rw [Outputs.dispValid, State.outputs, Option.isSome_map, Option.isSome_iff_ne_none]

/-- The pixel's place in disp_frame is below 2048, and its column and row come back by division by 32 (R228). -/
theorem Frame.getLsbD_toBits (f : Frame) {c r : Nat} (hc : c < 64) (hr : r < 32) :
    f.toBits.getLsbD (c * 32 + r) = f.get c r := by
  have hdiv : (c * 32 + r) / 32 = c := by omega
  have hmod : (c * 32 + r) % 32 = r := by omega
  rw [Frame.toBits, BitVec.getLsbD_ofFnLE, dif_pos (by omega), hdiv, hmod]

theorem State.outputs_keyWait_iff (s : State) : s.outputs.keyWait = true ↔ ∃ x, s.status = .waitKey x := by
  unfold State.outputs
  cases s.status <;> simp

theorem State.outputs_halted_iff (s : State) : s.outputs.halted = true ↔ s.status = .halted := decide_eq_true_iff

/-- Settles O14: a lemma for each port that is not a field of the state, and the cause's number by cases. -/
theorem outputsShowTheState : Obligations.OutputsShowTheState := by
  intro s
  refine ⟨s.outputs_dispValid_iff, fun frame bits hslot hbits c r hc hr => ?_, s.outputs_keyWait_iff, rfl,
    s.outputs_halted_iff, rfl, rfl, ?_⟩
  · have hframe : frame.toBits = bits := by simpa [State.outputs, hslot] using hbits
    rw [← hframe, Frame.getLsbD_toBits frame hc hr]
  · change s.faultCause.code = _
    cases s.faultCause <;> rfl

end Sys2Proof.Machine
end

section
/-! PROOFS. Initialisation, the program load and the launch (spec/70_reset_and_hazards.md R240 to R243): the reset state
item by item, what the load leaves, and the load phase until `run`. -/

namespace Sys2Proof.Machine

/-! ## The reset state (R240) -/

@[simp] theorem State.reset_reg (r : Nibble) : State.reset.reg r = 0 := Vector.getElem_replicate _

/-- Outside the font the initial memory is 0 (R32). -/
theorem Memory.initial_of_not_font (font : Vector Byte fontBytes) {a : Nat} (ha : a < 50 ∨ 130 ≤ a) :
    Memory.initial font a = 0 := dif_neg (by simp only [fontBase, fontBytes]; omega)

/-- The font stands from 50 on (R36). -/
theorem Memory.initial_font (font : Vector Byte fontBytes) {k : Nat} (hk : k < fontBytes) :
    Memory.initial font (50 + k) = font[k] := by
  rw [Memory.initial, dif_pos ⟨Nat.le_add_right 50 k, Nat.add_lt_add_left hk 50⟩]
  simp only [Nat.add_sub_cancel_left]

/-- Settles O1: the registers, the pixels and memory by their lemmas, every other item by definition. -/
theorem resetLeavesEverythingZeroed : Obligations.ResetLeavesEverythingZeroed :=
  ⟨State.reset_reg, rfl, rfl, rfl, rfl, rfl, fun c r _ _ => Frame.get_blank c r,
    fun _ ha => Memory.initial_of_not_font _ (ha.imp_right And.left), fun _ hk => Memory.initial_font _ hk,
    rfl, rfl, rfl, rfl, rfl, rfl⟩

/-! ## The invariants at reset (R240, R242) -/

/-- Memory that lists nothing is in canonical form. -/
theorem State.memoryCanonical_of_mem_nil {s : State} (hm : s.mem = []) : s.MemoryCanonical := by
  rw [State.MemoryCanonical, hm]
  exact ⟨.nil, by simp⟩

/-- Re-initialisation leaves the machine as the load phase has to keep it (R240). -/
theorem loadPhaseUntouched_reinit (s : State) : s.reinit.LoadPhaseUntouched :=
  fun _ => ⟨rfl, rfl, rfl, rfl, rfl, rfl, rfl, State.reset_reg, rfl, rfl, rfl, rfl⟩

/-- Settles O2: an empty memory, an empty stack, RUNNING with an empty record, and the load phase as initialised. -/
theorem resetMeetsEveryInvariant : Obligations.ResetMeetsEveryInvariant := by
  have hrunning : State.reset.status ≠ .halted := nofun
  refine ⟨State.memoryCanonical_of_mem_nil rfl, ⟨by decide, nofun⟩, fun _ _ => Nat.zero_le _, ?_, ?_, ?_⟩
  · exact (faultRecordSound_iff_of_notHalted hrunning).mpr ⟨rfl, rfl, rfl⟩
  · exact pendingIsFramebuffer_of_status_ne nofun
  · exact loadPhaseUntouched_reinit State.reset

/-- Settles O11: init is a step of its own, and re-initialisation keeps the parameters and the model's own fields. -/
theorem initRestoresResetState : Obligations.InitRestoresResetState := fun _ _ henv => step_of_event henv

/-! ## The load and the launch (R241, R243) -/

/-- The launch state of an image that fits: its bytes written from 0x200 on over the reset state, `run` given. -/
theorem State.launch_of_fits {image : List Byte} (hfits : image.length ≤ maxProgramBytes) :
    State.launch image =
      .next { State.reset.writeBytes (fun _ => true) programStart 0 image with loading := false } := by
  rw [State.launch, State.loadImage, if_pos hfits]
  rfl

theorem State.launch_of_tooLong {image : List Byte} (hlong : maxProgramBytes < image.length) :
    State.launch image = .fault .imageTooLong := by
  rw [State.launch, State.loadImage, if_neg hlong.not_ge]

/-- Settles O3: an image that fits ends at or below 4096, so each of its bytes is stored. -/
theorem launchPlacesImageVerbatim : Obligations.LaunchPlacesImageVerbatim := by
  refine fun image => ⟨fun hfits => ?_, State.launch_of_tooLong⟩
  have hreset : State.reset.MemoryCanonical := State.memoryCanonical_of_mem_nil rfl
  have hend : programStart + image.length ≤ memSize := by simp only [programStart, memSize]; omega
  refine ⟨_, State.launch_of_fits hfits, ?_, ?_, fun k hk => ?_, fun a ha => ?_⟩
  · rw [State.writeBytes_eq]
  · exact State.memoryCanonical_writeBytes _ _ _ 0 hreset
  · exact State.readByte_writeBytes_at hreset hend hk
  · exact State.readByte_writeBytes_outside hreset _ ha

/-! ## The load phase (R240, R242) -/

/-- After `run` the load phase asks for nothing. -/
theorem loadPhaseUntouched_of_not_loading {s : State} (hl : s.loading = false) : s.LoadPhaseUntouched :=
  fun h => absurd (hl.symm.trans h) nofun

/-- Only init opens the load phase and only `run` closes it (R228, R240). -/
theorem State.applyEvent_loading (s : State) {e : Event} (hinit : e ≠ .init) (hrun : e ≠ .run) :
    (s.applyEvent e).loading = s.loading := by
  cases e with
  | tickDelay | tickSound | takeFrame => rfl
  | answerKey key => rw [State.applyEvent, State.answerKey_eq]
  | init => exact absurd rfl hinit
  | loadByte addr data => rw [State.applyEvent, State.loadByte_eq]
  | run => exact absurd rfl hrun

/-- No key is awaited in RUNNING (R184). -/
theorem State.answerKey_of_running {s : State} (hst : s.status = .running) (key : Nibble) : s.answerKey key = s := by
  rw [State.answerKey, hst]

/-- In the load phase an event other than init and `run` reaches memory alone: the timers stand at 0, no key is awaited
and the slot is empty (R184, R220, R225). -/
theorem State.applyEvent_of_untouched {s : State} (hs : s.LoadPhaseUntouched) (hl : s.loading = true) {e : Event}
    (hinit : e ≠ .init) (hrun : e ≠ .run) : s.applyEvent e = { s with mem := (s.applyEvent e).mem } := by
  obtain ⟨hstatus, -, -, -, -, -, hslot, -, -, hdt, hst, -⟩ := hs hl
  cases e with
  | tickDelay =>
    have hstays : tick s.dt = s.dt := by rw [hdt]; rfl
    rw [State.applyEvent, hstays]
  | tickSound =>
    have hstays : tick s.st = s.st := by rw [hst]; rfl
    rw [State.applyEvent, hstays]
  | takeFrame => rw [State.applyEvent, ← hslot]
  | answerKey key => rw [State.applyEvent, State.answerKey_of_running hstatus]
  | init => exact absurd rfl hinit
  | loadByte addr data => rw [State.applyEvent, State.loadByte_eq]
  | run => exact absurd rfl hrun

theorem loadPhaseUntouched_applyEvent {s : State} (hs : s.LoadPhaseUntouched) (e : Event) :
    (s.applyEvent e).LoadPhaseUntouched := by
  by_cases hinit : e = .init
  · subst hinit
    exact loadPhaseUntouched_reinit s
  by_cases hrun : e = .run
  · subst hrun
    exact loadPhaseUntouched_of_not_loading rfl
  intro hl
  rw [s.applyEvent_loading hinit hrun] at hl
  rw [State.applyEvent_of_untouched hs hl hinit hrun]
  exact hs hl

/-- Settles O51: no event but init and `run` reaches anything but memory, and every engine turn that changes something
comes after `run`. -/
theorem stepKeepsLoadPhaseUntouched : Obligations.StepKeepsLoadPhaseUntouched := by
  intro s t hs h
  rcases step_cases h with ⟨e, rest, -, rfl⟩ | ⟨-, u, hu, rfl⟩
  · exact loadPhaseUntouched_applyEvent (s := { s with env := rest }) hs e
  · rcases State.engineTurn_cases hu with ⟨rfl, -⟩ | ⟨frame, hl, -, -, rfl⟩ | ⟨hl, -, -, rfl⟩ | ⟨hl, -, -, hx⟩
    · exact hs
    · exact loadPhaseUntouched_of_not_loading hl
    · exact loadPhaseUntouched_of_not_loading hl
    · obtain ⟨-, hkeeps, -⟩ := exec_keeps_outside hx
      exact loadPhaseUntouched_of_not_loading (hkeeps.trans hl)

end Sys2Proof.Machine
end
